-- ==== Sys2Proof/Word.lean ====
section
/-! DEFINITION. The storage unit of the machine and its counter's width (00_scope.md R9, R12). -/

namespace Sys2Proof

/-- A Cell: one 6-bit storage unit, a memory location, a register, an opcode or an address
(00_scope.md R12, R15). -/
abbrev Cell := BitVec 6

/-- The internal clock tick counter `t`, which wraps at 32768 steps (10_state.md R31). -/
abbrev Tick := BitVec 15

end Sys2Proof
end

