-- ==== Sys2Proof/Syntax.lean ====
section
/-! DEFINITION. The instruction set as data: registers, flags, addressing modes, side effects, the closed
enumeration of operation classes, and the instructions (30_encoding.md R103 to R105). -/

namespace Sys2Proof

/-- The five registers (10_state.md R20). -/
inductive Reg where
  | a | b | i | s | f
deriving DecidableEq, Repr, Inhabited

/-- The three flags packed into F (10_state.md R25). -/
inductive Flag where
  | c | m | z
deriving DecidableEq, Repr, Inhabited

/-- The `AddressingMode` enumeration (30_encoding.md R104). `quick k` is mode `Qk`. -/
inductive Mode where
  | none
  | imm
  | immInd
  | baseInd
  | stackInd
  | quick (k : Fin 8)
  | reg (r : Reg)
  | flag (x : Flag)
deriving DecidableEq, Repr, Inhabited

/-- The `sideEffect` enumeration (30_encoding.md R105). -/
inductive SideEffect where
  | none | preDecStack | postIncStack | postIncBase
deriving DecidableEq, Repr, Inhabited

/-- The `OperationClass` enumeration, 24 classes (30_encoding.md R103). `ret` is RETURN. -/
inductive OperationClass where
  | stop | nop | load | push | pop
  | add | sub | and | or | xor | not | inc | dec | rol | ror
  | jmp | jz | jnz | jc | jnc | jm | jnm | call | ret
deriving DecidableEq, Repr, Inhabited

/-- What an instruction carries beside its class: its opcode cell, and the fields of the opcode record
that decode found there (30_encoding.md R102), with the value of the immediate cell (R108).
`imm` has a meaning only when `takesImmediate` is set (40_step_fsm.md R144). -/
structure Operands where
  opcode : Cell
  source : Mode
  target : Mode
  takesImmediate : Bool
  imm : Cell
  sideEffect : SideEffect
deriving DecidableEq, Repr, Inhabited

/-- The instructions: one constructor per row of spec/opcode_table.json. -/
inductive Instr where
  | stop (o : Operands)
  | nop (o : Operands)
  | load (o : Operands)
  | push (o : Operands)
  | pop (o : Operands)
  | add (o : Operands)
  | sub (o : Operands)
  | and (o : Operands)
  | or (o : Operands)
  | xor (o : Operands)
  | not (o : Operands)
  | inc (o : Operands)
  | dec (o : Operands)
  | rol (o : Operands)
  | ror (o : Operands)
  | jmp (o : Operands)
  | jz (o : Operands)
  | jnz (o : Operands)
  | jc (o : Operands)
  | jnc (o : Operands)
  | jm (o : Operands)
  | jnm (o : Operands)
  | call (o : Operands)
  | ret (o : Operands)
deriving DecidableEq, Repr, Inhabited

/-- The operation class of an instruction. -/
def Instr.cls : Instr → OperationClass
  | .stop _ => .stop
  | .nop _ => .nop
  | .load _ => .load
  | .push _ => .push
  | .pop _ => .pop
  | .add _ => .add
  | .sub _ => .sub
  | .and _ => .and
  | .or _ => .or
  | .xor _ => .xor
  | .not _ => .not
  | .inc _ => .inc
  | .dec _ => .dec
  | .rol _ => .rol
  | .ror _ => .ror
  | .jmp _ => .jmp
  | .jz _ => .jz
  | .jnz _ => .jnz
  | .jc _ => .jc
  | .jnc _ => .jnc
  | .jm _ => .jm
  | .jnm _ => .jnm
  | .call _ => .call
  | .ret _ => .ret

/-- The operands of an instruction. -/
def Instr.operands : Instr → Operands
  | .stop o | .nop o | .load o | .push o | .pop o => o
  | .add o | .sub o | .and o | .or o | .xor o | .not o | .inc o | .dec o | .rol o | .ror o => o
  | .jmp o | .jz o | .jnz o | .jc o | .jnc o | .jm o | .jnm o | .call o | .ret o => o

/-- The instruction of a class with given operands. -/
def Instr.ofClass (c : OperationClass) (o : Operands) : Instr :=
  match c with
  | .stop => .stop o
  | .nop => .nop o
  | .load => .load o
  | .push => .push o
  | .pop => .pop o
  | .add => .add o
  | .sub => .sub o
  | .and => .and o
  | .or => .or o
  | .xor => .xor o
  | .not => .not o
  | .inc => .inc o
  | .dec => .dec o
  | .rol => .rol o
  | .ror => .ror o
  | .jmp => .jmp o
  | .jz => .jz o
  | .jnz => .jnz o
  | .jc => .jc o
  | .jnc => .jnc o
  | .jm => .jm o
  | .jnm => .jnm o
  | .call => .call o
  | .ret => .ret o

end Sys2Proof
end

