-- ==== Sys2Proof/Config.lean ====
section
/-! DEFINITION. The configuration record of 00_scope.md R10, plain data, and the free values: what the
spec leaves OPEN is a constant here that has no body, so that no proof can depend on its value. -/

namespace Sys2Proof

/-- A name in a table row: one of the spec's enumeration, or one outside it (30_encoding.md R107 (a):
a table may hold a record the model cannot give a meaning). -/
inductive Entry (α : Type) where
  | listed (x : α)
  | unlisted (name : String)
deriving DecidableEq, Repr, Inhabited

/-- The opcode record, five fields (30_encoding.md R102). -/
structure OpcodeRecord where
  cls : Entry OperationClass
  source : Entry Mode
  target : Entry Mode
  takesImmediate : Bool
  sideEffect : SideEffect
deriving DecidableEq, Repr, Inhabited

/-- `flagMask`: the mask of each flag in F (10_state.md R25). -/
structure FlagMasks where
  c : Cell
  m : Cell
  z : Cell
deriving DecidableEq, Repr

/-- `ioMap`: the addresses of the I/O cells (20_memory.md R64). -/
structure IoMap where
  dir : Cell
  port : Cell
  disp0 : Cell
  disp1 : Cell
  disp2 : Cell
  disp3 : Cell
  tickSlow : Cell
  tickFast : Cell
deriving DecidableEq, Repr

/-- `promWritePolicy`: what a write by an instruction to a program cell does (20_memory.md R71). -/
inductive PromWritePolicy where
  | ignore
  | fault
deriving DecidableEq, Repr

/-- The 4-cell display window (10_state.md R33). -/
structure Display where
  d0 : Cell
  d1 : Cell
  d2 : Cell
  d3 : Cell
deriving DecidableEq, Repr

/-- `resetValues`: every reset value of 10_state.md R36 (92_eei_decisions.md D14); `cells` holds those of the
addresses 0o00 to 0o27 in order. The status is no parameter: a reset clears the fault record and is the way out
of FAULT, so it gives RUN (70_reset_and_hazards.md R310). The program region has no reset value (R312). -/
structure ResetValues where
  a : Cell
  b : Cell
  i : Cell
  s : Cell
  f : Cell
  cells : Vector Cell 24
  tick : Tick
  outLatch : Cell
  display : Display
deriving DecidableEq, Repr

/-- The configuration record (00_scope.md R10). It is fixed for the machine. -/
structure Config where
  isaTable : Vector OpcodeRecord 64
  stopOpcode : Cell
  admitDecidedClasses : Bool
  flagMask : FlagMasks
  ioMap : IoMap
  promWritePolicy : PromWritePolicy
  resetValues : ResetValues
  charset : Vector Char 64
deriving DecidableEq, Repr

/-- `Isa(op)`: the record of an opcode, defined for every opcode (30_encoding.md R106). -/
def Config.isa (cfg : Config) (op : Cell) : OpcodeRecord :=
  cfg.isaTable[op.toNat]'op.isLt

/-- The row of `isaTable` for an opcode. OPEN (92_eei_decisions.md D1; log 1): free. -/
opaque Config.openIsaRow (op : Nat) : OpcodeRecord

/-- `stopOpcode`. OPEN (92_eei_decisions.md D2; log 2): free. -/
opaque Config.openStopOpcode : Cell

/-- `charset`. OPEN (92_eei_decisions.md D39; log 20): free. -/
opaque Config.openCharset (code : Nat) : Char

/-- What a program cell holds that nothing has been written to (93_implementation_defined.md U11; log 8): free. -/
opaque Config.powerUpCell (a : Nat) : Cell

/-- What the `inp` hook returns at the n-th draw where the host has supplied no value
(20_memory.md R84, R91; 93_implementation_defined.md U8; log 10): free. -/
opaque Config.inpStub (n : Nat) : Cell

/-- What a register holds after a fault, at the n-th draw (93_implementation_defined.md U6; log 12): free. -/
opaque Config.faultedReg (n : Nat) (r : Reg) : Cell

/-- What a memory cell holds after a fault, at the n-th draw (93_implementation_defined.md U6; log 12): free. -/
opaque Config.faultedCell (n : Nat) (a : Nat) : Cell

end Sys2Proof
end

