-- ==== Sys2Proof/Machine/Decided.lean ====
section
/-! DEFINITION. The configuration the machine has after reset: the parameters the spec decides at their
decided values, the OPEN ones free (00_scope.md R10). -/

namespace Sys2Proof.Machine

/-- A table of 64 rows, row k for opcode k. -/
def tableOf (row : Nat → OpcodeRecord) : Vector OpcodeRecord 64 :=
  ⟨⟨(List.range 64).map row⟩, by simp⟩

/-- A character set of 64 symbols, symbol k for cell value k. -/
def charsetOf (symbol : Nat → Char) : Vector Char 64 :=
  ⟨⟨(List.range 64).map symbol⟩, by simp⟩

/-- The decided flag masks (10_state.md R25; 92_eei_decisions.md D4; log 4). -/
def decidedFlagMask : FlagMasks where
  c := 0o01
  m := 0o02
  z := 0o04

/-- The decided I/O addresses (20_memory.md R64; 92_eei_decisions.md D8; log 5). -/
def decidedIoMap : IoMap where
  dir := 0o20
  port := 0o21
  disp0 := 0o22
  disp1 := 0o23
  disp2 := 0o24
  disp3 := 0o25
  tickSlow := 0o26
  tickFast := 0o27

/-- The decided reset values (10_state.md R36; 92_eei_decisions.md D14; log 7). -/
def decidedResetValues : ResetValues where
  a := 0
  b := 0
  i := 0o30
  s := 0o20
  f := 0
  cells := Vector.replicate 24 0
  tick := 0
  outLatch := 0
  display := ⟨0, 0, 0, 0⟩

/-- The configuration with every decided parameter at its decided value, over a given table, STOP
opcode and character set. -/
def decidedConfig (row : Nat → OpcodeRecord) (stopOpcode : Cell) (symbol : Nat → Char) : Config where
  isaTable := tableOf row
  stopOpcode := stopOpcode
  admitDecidedClasses := true
  flagMask := decidedFlagMask
  ioMap := decidedIoMap
  promWritePolicy := .ignore
  resetValues := decidedResetValues
  charset := charsetOf symbol

/-- The machine's configuration: the three OPEN parameters are free (log 1, 2, 20). -/
def initialConfig : Config :=
  decidedConfig Config.openIsaRow Config.openStopOpcode Config.openCharset

end Sys2Proof.Machine
end

