-- ==== Sys2Proof/WellFormed.lean ====
section
/-! DEFINITION. What makes a table row, a configuration and an instruction well-formed
(30_encoding.md R103, R107, R110; 00_scope.md R16). Each check is a Bool, so that it can be decided. -/

namespace Sys2Proof

/-- The status of a class in 30_encoding.md R103. -/
inductive ClassStatus where
  | source | category | decision
deriving DecidableEq, Repr

/-- The status column of 30_encoding.md R103. -/
def OperationClass.status : OperationClass → ClassStatus
  | .stop | .load | .push | .pop | .add | .jnz | .call | .ret => .source
  | .inc | .dec | .rol | .ror | .jmp => .category
  | .nop | .sub | .and | .or | .xor | .not | .jz | .jc | .jnc | .jm | .jnm => .decision

/-- A class is admitted unless its status is `decision` and the configuration refuses those
(30_encoding.md R107 (b); 00_scope.md R16). -/
def Config.admits (cfg : Config) (c : OperationClass) : Bool :=
  cfg.admitDecidedClasses || c.status != .decision

/-- The modes that read the immediate cell (30_encoding.md R110 (W1)). -/
def Mode.usesImmediate : Mode → Bool
  | .imm | .immInd => true
  | .none | .baseInd | .stackInd | .quick _ | .reg _ | .flag _ => false

/-- (W1): a mode that reads the immediate needs a record that fetches it (30_encoding.md R110). -/
def immediateFetched (source target : Mode) (takesImmediate : Bool) : Bool :=
  takesImmediate || !(source.usesImmediate || target.usesImmediate)

/-- (W2): the class is STOP exactly when the opcode is `stopOpcode` (30_encoding.md R110). -/
def Config.stopAgrees (cfg : Config) (op : Cell) (c : OperationClass) : Bool :=
  (c == .stop) == (op == cfg.stopOpcode)

/-- A row the model admits: listed names, an admitted class, (W1) and (W2) (30_encoding.md R107, R110). -/
def Config.rowAdmitted (cfg : Config) (op : Cell) : Bool :=
  match (cfg.isa op).cls, (cfg.isa op).source, (cfg.isa op).target with
  | .listed c, .listed src, .listed tgt =>
    cfg.admits c && immediateFetched src tgt (cfg.isa op).takesImmediate && cfg.stopAgrees op c
  | _, _, _ => false

/-- Every row is admitted. -/
def Config.tableAdmitted (cfg : Config) : Bool :=
  (List.range 64).all fun op => cfg.rowAdmitted (BitVec.ofNat 6 op)

/-- The flags stand "at distinct mask bits" (10_state.md R25): no mask is empty, no two share a bit. -/
def FlagMasks.wellFormed (k : FlagMasks) : Bool :=
  k.c != 0 && k.m != 0 && k.z != 0 && (k.c &&& k.m) == 0 && (k.c &&& k.z) == 0 && (k.m &&& k.z) == 0

/-- The addresses of the I/O cells, in the order of 20_memory.md R64. -/
def IoMap.addresses (io : IoMap) : List Cell :=
  [io.dir, io.port, io.disp0, io.disp1, io.disp2, io.disp3, io.tickSlow, io.tickFast]

/-- The I/O cells are eight different cells of the I/O region 0o20 to 0o27 (20_memory.md R61, R64). -/
def IoMap.wellFormed (io : IoMap) : Bool :=
  io.addresses.all (fun a => 0o20 ≤ a.toNat && a.toNat < 0o30) && decide io.addresses.Nodup

/-- The character set names 64 different characters (92_eei_decisions.md D39). -/
def Config.charsetInjective (cfg : Config) : Bool :=
  decide cfg.charset.toList.Nodup

/-- A well-formed configuration. -/
def Config.wellFormed (cfg : Config) : Bool :=
  cfg.tableAdmitted && cfg.flagMask.wellFormed && cfg.ioMap.wellFormed && cfg.charsetInjective

/-- The table row an instruction stands for. -/
def Instr.record (i : Instr) : OpcodeRecord where
  cls := .listed i.cls
  source := .listed i.operands.source
  target := .listed i.operands.target
  takesImmediate := i.operands.takesImmediate
  sideEffect := i.operands.sideEffect

/-- An instruction is well-formed under a configuration when the table gives its opcode exactly its
record, its class is admitted, (W1) and (W2) hold, and a value it does not fetch is 0. -/
def Instr.wellFormed (cfg : Config) (i : Instr) : Bool :=
  cfg.isa i.operands.opcode == i.record
    && cfg.admits i.cls
    && immediateFetched i.operands.source i.operands.target i.operands.takesImmediate
    && cfg.stopAgrees i.operands.opcode i.cls
    && (i.operands.takesImmediate || i.operands.imm == 0)

end Sys2Proof
end

