-- ==== Sys2Proof/Decode.lean ====
section
/-! DEFINITION. Decode: a lookup of the whole opcode cell in `isaTable`, total on any cells, rejecting by
name (30_encoding.md R100, R101, R106, R107); and the encoder. -/

namespace Sys2Proof

/-- Why the model gives the cells no instruction. Each errs toward unprovable (30_encoding.md R107): safe. -/
inductive DecodeRefusal where
  /-- The cells end before the instruction does. A step always hands decode two cells, so it never raises this. -/
  | cellsMissing
  /-- R107 (a): the row's class is outside the enumeration of R103. -/
  | classNotListed (opcode : Cell) (name : String)
  /-- R107 (a), 93_implementation_defined.md U3: the row's source mode is outside the enumeration of R104. -/
  | sourceNotListed (opcode : Cell) (name : String)
  /-- R107 (a), 93_implementation_defined.md U3: the row's target mode is outside the enumeration of R104. -/
  | targetNotListed (opcode : Cell) (name : String)
  /-- R107 (b): the class has status `decision` and `admitDecidedClasses` is false. -/
  | classNotAdmitted (opcode : Cell) (c : OperationClass)
  /-- R107 (c): the row breaks (W1), a mode reads an immediate that is not fetched. -/
  | immediateNotFetched (opcode : Cell)
  /-- R107 (c): the row breaks (W2), STOP and `stopOpcode` disagree. -/
  | stopDisagrees (opcode : Cell)
deriving DecidableEq, Repr

/-- Phase FETCH_IMM's part of decode: the immediate cell, fetched when the record takes one
(30_encoding.md R100, R108). -/
def takeImmediate (takesImmediate : Bool) (cells : List Cell) : Except DecodeRefusal (Cell × List Cell) :=
  if takesImmediate then
    match cells with
    | [] => .error .cellsMissing
    | v :: rest => .ok (v, rest)
  else .ok (0, cells)

/-- The instruction of an opcode whose record has listed names, from the cells after the opcode. -/
def decodeRow (cfg : Config) (op : Cell) (c : OperationClass) (src tgt : Mode) (cells : List Cell) :
    Except DecodeRefusal (Instr × List Cell) :=
  if !cfg.admits c then .error (.classNotAdmitted op c)
  else if !immediateFetched src tgt (cfg.isa op).takesImmediate then .error (.immediateNotFetched op)
  else if !cfg.stopAgrees op c then .error (.stopDisagrees op)
  else
    match takeImmediate (cfg.isa op).takesImmediate cells with
    | .error e => .error e
    | .ok (v, rest) =>
      .ok (Instr.ofClass c
        { opcode := op, source := src, target := tgt, takesImmediate := (cfg.isa op).takesImmediate,
          imm := v, sideEffect := (cfg.isa op).sideEffect }, rest)

/-- Decode one instruction from the front of the cells; the rest is what follows it. -/
def decode (cfg : Config) : List Cell → Except DecodeRefusal (Instr × List Cell)
  | [] => .error .cellsMissing
  | op :: cells =>
    match (cfg.isa op).cls with
    | .unlisted name => .error (.classNotListed op name)
    | .listed c =>
      match (cfg.isa op).source with
      | .unlisted name => .error (.sourceNotListed op name)
      | .listed src =>
        match (cfg.isa op).target with
        | .unlisted name => .error (.targetNotListed op name)
        | .listed tgt => decodeRow cfg op c src tgt cells

/-- The cells of an instruction: the opcode cell, then the immediate cell when there is one
(30_encoding.md R100). -/
def encode (i : Instr) : List Cell :=
  if i.operands.takesImmediate then [i.operands.opcode, i.operands.imm] else [i.operands.opcode]

/-- How many cells an instruction takes (30_encoding.md R100). -/
def Operands.length (o : Operands) : Nat :=
  if o.takesImmediate then 2 else 1

/-- The first two cells of an instruction written as one number: cell k is bits 6k+5 to 6k, and every
bit from `nbits` up is 0 (log 16). Two cells are the longest instruction. -/
def cellsOfWord (nbits w : Nat) : List Cell :=
  [BitVec.ofNat 6 (w % 2 ^ nbits), BitVec.ofNat 6 (w % 2 ^ nbits / 64)]

/-- The instruction the decoder reads from a word, under the configuration of the machine after reset.
The table is OPEN there (log 1), so what this answers is fixed by no proof. -/
def decodeTableWord (nbits w : Nat) : Option Instr :=
  match decode Machine.initialConfig (cellsOfWord nbits w) with
  | .ok (i, _) => some i
  | .error _ => none

end Sys2Proof
end

