-- ==== Sys2Proof/Machine/State.lean ====
section
/-! DEFINITION. The state of the machine (10_state.md), its reset value, and the reasons a step can stop. -/

namespace Sys2Proof.Machine

/-- Memory: (address, cell) pairs with addresses strictly rising, a cell's six bits in the low six bits of
the byte (log 8, log 9). What an unlisted address reads as is `Memory.unlisted` in Machine/Ops.lean. -/
abbrev Memory := List Host.Cell

/-- The causes of a fault (60_exceptions.md R281). -/
inductive FaultCause where
  | undefinedTarget
  | undefinedSource
  | promWrite
deriving DecidableEq, Repr

/-- The fault record (60_exceptions.md R282): the cause, the fetched opcode, and the address it was
fetched from. -/
structure FaultRecord where
  cause : FaultCause
  opcode : Cell
  addr : Cell
deriving DecidableEq, Repr

/-- The status of the block; in FAULT it holds the fault record (10_state.md R32). -/
inductive Status where
  | run
  | fault (r : FaultRecord)
deriving DecidableEq, Repr

/-- The state: what the spec gives the machine, and three fields of the model's own
(`inpQueue`, `draws`, `cfg`). -/
structure State where
  /-- A, the accumulator (10_state.md R21). -/
  regA : Cell
  /-- B, the base register (R22). -/
  regB : Cell
  /-- I, the instruction pointer (R23). -/
  regI : Cell
  /-- S, the stack pointer (R24). -/
  regS : Cell
  /-- F, the flags register (R25). -/
  regF : Cell
  /-- The 64 cells (R30). -/
  mem : Memory
  /-- t, the tick counter (R31). -/
  tick : Tick
  /-- RUN, or FAULT with its record (R32). -/
  status : Status
  /-- The value last passed to the `out` hook (R33). -/
  outLatch : Cell
  /-- The cells last passed to the `display` hook (R33). -/
  display : Display
  /-- The model's own: the `inp` values the host has supplied for the coming steps (log 10). -/
  inpQueue : List Cell
  /-- The model's own: how many free values have been drawn (log 11). -/
  draws : Nat
  /-- The configuration (00_scope.md R10), fixed for the machine: no step changes it (log 3). -/
  cfg : Config
deriving DecidableEq, Repr

/-- Why a step has no successor though the machine has one meaning there. -/
inductive Fault where
  /-- Raised by `step` in status FAULT, and by nothing else: no step is possible there until a reset
  (40_step_fsm.md R166). Safe (log 13). -/
  | faulted (r : FaultRecord)
deriving DecidableEq, Repr

/-- Why the model declines to give a step a meaning. -/
inductive Refusal where
  /-- Raised by an arm of `exec` for an instruction with no meaning yet. None is left. Safe. -/
  | notModelled (mnemonic : String)
  /-- Raised by `step` where decode refuses the opcode's record (30_encoding.md R107). Safe. -/
  | undecodable (why : DecodeRefusal)
deriving DecidableEq, Repr

/-- The machine right after reset, nothing loaded: the reset cells are 0, which is what a memory that lists
nothing reads as below the program region (`applyReset_eq_reset`) (10_state.md R36; 70_reset_and_hazards.md R310 to R312;
log 7, 8, 10, 11). -/
def State.reset : State where
  regA := initialConfig.resetValues.a
  regB := initialConfig.resetValues.b
  regI := initialConfig.resetValues.i
  regS := initialConfig.resetValues.s
  regF := initialConfig.resetValues.f
  mem := []
  tick := initialConfig.resetValues.tick
  status := .run
  outLatch := initialConfig.resetValues.outLatch
  display := initialConfig.resetValues.display
  inpQueue := []
  draws := 0
  cfg := initialConfig

end Sys2Proof.Machine
end

