-- ==== Sys2Proof/Machine/Flags.lean ====
section
/-! DEFINITION. Masking, the flag rule and the flags packed in F (00_scope.md R12; 10_state.md R25 to R28;
42_alu.md R200, R201). -/

namespace Sys2Proof.Machine

/-- `mask6(r)`: a pre-mask result modulo 64, in 0 to 63 (00_scope.md R12; log 19). -/
def mask6 (r : Int) : Cell := BitVec.ofInt 6 r

/-- The three computed flags. -/
structure FlagBits where
  c : Bool
  m : Bool
  z : Bool
deriving DecidableEq, Repr

/-- The flag rule, from the pre-mask result (42_alu.md R200). -/
def flagRule (r : Int) : FlagBits where
  c := decide (r < 0) || decide (64 ≤ r)
  m := decide (r < 0) || (decide (0 ≤ r) && r.toNat.testBit 5)
  z := decide (r = 0)

/-- The flag rule with C replaced by the bit rotated out (42_alu.md R211, R212). -/
def flagRuleWithCarry (r : Int) (carry : Bool) : FlagBits :=
  { flagRule r with c := carry }

/-- `flagMask(X)` (10_state.md R25). -/
def flagMaskOf (k : FlagMasks) : Flag → Cell
  | .c => k.c
  | .m => k.m
  | .z => k.z

/-- The bits of F that are flags (42_alu.md R201). -/
def flagMaskAll (k : FlagMasks) : Cell := k.c ||| k.m ||| k.z

/-- `flag(X)` of a value of F (00_scope.md R13). -/
def flagSet (k : FlagMasks) (f : Cell) (x : Flag) : Bool :=
  f &&& flagMaskOf k x != 0

/-- The flag write: all three flags, the other bits of F kept (42_alu.md R201; 10_state.md R26). -/
def flagWrite (k : FlagMasks) (f : Cell) (b : FlagBits) : Cell :=
  (f &&& ~~~(flagMaskAll k))
    ||| (if b.c then k.c else 0) ||| (if b.m then k.m else 0) ||| (if b.z then k.z else 0)

/-- A write of `v` to one flag (10_state.md R28; 40_step_fsm.md R154). -/
def flagStore (k : FlagMasks) (f : Cell) (x : Flag) (v : Cell) : Cell :=
  if v != 0 then f ||| flagMaskOf k x else f &&& ~~~(flagMaskOf k x)

end Sys2Proof.Machine
end

