-- ==== Sys2Proof/Machine/Ops.lean ====
section
/-! DEFINITION. The named operations over memory and registers: reading, writing, the write filter,
fetching, the stack and base side effects, taking a fault, the tick phase and the I/O pass. -/

namespace Sys2Proof.Machine

/-! Memory (20_memory.md R60 to R73). -/

/-- The first address of the program region (20_memory.md R61). -/
def programBase : Nat := 0o30

/-- An address of the program region 0o30 to 0o77 (20_memory.md R65). -/
def isProgram (a : Cell) : Bool := decide (programBase ≤ a.toNat)

/-- What an address that memory does not list reads as: 0 below the program region (10_state.md R36),
any value in it (93_implementation_defined.md U11; log 8). -/
def Memory.unlisted (a : Cell) : Cell :=
  if isProgram a then Config.powerUpCell a.toNat else 0

/-- The byte listed at an address. -/
def Memory.lookup : Memory → Nat → Option (BitVec 8)
  | [], _ => none
  | (b, v) :: m, a => if b = a then some v else Memory.lookup m a

/-- List a byte at its place in the order of addresses, in place of what was listed there. -/
def Memory.insert : Memory → Nat → BitVec 8 → Memory
  | [], a, v => [(a, v)]
  | (b, w) :: m, a, v =>
    if a < b then (a, v) :: (b, w) :: m
    else if a = b then (a, v) :: m
    else (b, w) :: Memory.insert m a v

/-- List nothing at an address. -/
def Memory.erase (m : Memory) (a : Nat) : Memory := m.filter fun e => e.1 != a

/-- `mem[a]` (20_memory.md R66). -/
def Memory.read (m : Memory) (a : Cell) : Cell :=
  match m.lookup a.toNat with
  | some v => v.setWidth 6
  | none => Memory.unlisted a

/-- `mem[a] <- v`, unfiltered. A cell that comes to hold what it reads as unlisted is not listed; a
program cell that has been written stays listed (log 8). -/
def Memory.write (m : Memory) (a v : Cell) : Memory :=
  if !isProgram a && v == 0 then m.erase a.toNat else m.insert a.toNat (v.setWidth 8)

/-- The addresses rise strictly from a bound on. -/
def Memory.risingFrom : Nat → Memory → Bool
  | _, [] => true
  | n, (a, _) :: m => decide (n ≤ a) && Memory.risingFrom (a + 1) m

/-- An entry that may stand in a memory: an address of the 64, a 6-bit value, and not the 0 that an
unlisted cell below the program region reads as. -/
def Memory.entryOk (e : Host.Cell) : Bool :=
  decide (e.1 < 64) && decide (e.2.toNat < 64) && (decide (programBase ≤ e.1) || e.2 != 0)

/-- The canonical form of a memory (log 8). -/
def Memory.wf (m : Memory) : Bool := Memory.risingFrom 0 m && m.all Memory.entryOk

/-- The reset value of an address below the program region (10_state.md R36). -/
def resetCell (v : ResetValues) (a : Nat) : Cell := v.cells.toList.getD a 0

/-- A memory with given values laid in the n cells from 0 on. -/
def Memory.fill (m : Memory) (n : Nat) (cell : Nat → Cell) : Memory :=
  (List.range n).foldl (fun m a => Memory.write m (BitVec.ofNat 6 a) (cell a)) m

/-- A memory with a given value in each of the 64 cells. -/
def Memory.filled (cell : Nat → Cell) : Memory := Memory.fill [] 64 cell

/-- `MemRead(a, 1)`: no side effect at any address (20_memory.md R66). -/
def State.read (s : State) (a : Cell) : Cell := s.mem.read a

/-- `mem[a] <- v` past the write filter: the loader, the tick phase and the I/O pass write so. -/
def State.poke (s : State) (a v : Cell) : State := { s with mem := s.mem.write a v }

/-- What PORT holds after a write of `w` by an instruction (20_memory.md R72; log 24). -/
def portWritten (port dir w : Cell) : Cell := (port &&& ~~~dir) ||| (w &&& dir)

/-- What PORT holds after the input merge (20_memory.md R84). -/
def portMerged (port dir i : Cell) : Cell := (port &&& dir) ||| (i &&& ~~~dir)

/-- `MemWrite(a, 1, v)` by an executing instruction: the write filter (20_memory.md R70 to R72). -/
def State.memWrite (s : State) (a v : Cell) : Except FaultCause State :=
  if isProgram a then
    match s.cfg.promWritePolicy with
    | .ignore => .ok s
    | .fault => .error .promWrite
  else if a == s.cfg.ioMap.port then
    .ok (s.poke a (portWritten (s.read a) (s.read s.cfg.ioMap.dir) v))
  else .ok (s.poke a v)

/-! Registers and flags (10_state.md R20 to R29). -/

/-- `x[R]`. -/
def State.reg (s : State) : Reg → Cell
  | .a => s.regA
  | .b => s.regB
  | .i => s.regI
  | .s => s.regS
  | .f => s.regF

/-- `x[R] <- v`. -/
def State.setReg (s : State) (r : Reg) (v : Cell) : State :=
  match r with
  | .a => { s with regA := v }
  | .b => { s with regB := v }
  | .i => { s with regI := v }
  | .s => { s with regS := v }
  | .f => { s with regF := v }

/-- `flag(X)` (00_scope.md R13). -/
def State.flag (s : State) (x : Flag) : Bool := flagSet s.cfg.flagMask s.regF x

/-- A flag read as a register: 0 or 1 (10_state.md R28). -/
def State.flagCell (s : State) (x : Flag) : Cell := if s.flag x then 1 else 0

/-- A write to one flag (40_step_fsm.md R154). -/
def State.setFlag (s : State) (x : Flag) (v : Cell) : State :=
  { s with regF := flagStore s.cfg.flagMask s.regF x v }

/-- Phase FLAGS (40_step_fsm.md R152): runs only where the class writes flags. -/
def State.putFlags (s : State) : Option FlagBits → State
  | none => s
  | some b => { s with regF := flagWrite s.cfg.flagMask s.regF b }

/-! Fetch (40_step_fsm.md R142 to R144). -/

/-- HALTED: status RUN, and the cell at I is the STOP opcode (10_state.md R35). -/
def State.halted (s : State) : Bool := s.status == .run && s.read s.regI == s.cfg.stopOpcode

/-- The cells the fetch of one instruction may read: at I, and at I + 1 modulo 64 (40_step_fsm.md R143, R144). -/
def State.fetchCells (s : State) : List Cell := [s.read s.regI, s.read (s.regI + 1)]

/-- The instruction at I (40_step_fsm.md R143 to R145). -/
def State.fetchDecode (s : State) : Except DecodeRefusal Instr :=
  match decode s.cfg s.fetchCells with
  | .ok (i, _) => .ok i
  | .error e => .error e

/-- I moves past the instruction's cells, each step modulo 64 (40_step_fsm.md R143, R144). -/
def State.advance (s : State) (o : Operands) : State :=
  { s with regI := s.regI + BitVec.ofNat 6 o.length }

/-! Side effects of a record (40_step_fsm.md R147, R148, R157). -/

/-- Phase STACK_ADJ. -/
def State.stackAdjust (s : State) : SideEffect → State
  | .postIncStack => { s with regS := s.regS + 1 }
  | .preDecStack => { s with regS := s.regS - 1 }
  | .none | .postIncBase => s

/-- Phase BASE_INC. -/
def State.baseIncrement (s : State) : SideEffect → State
  | .postIncBase => { s with regB := s.regB + 1 }
  | .none | .preDecStack | .postIncStack => s

/-- CALL's jump, after WRITEBACK (43_control.md R248). -/
def State.jumpTo (s : State) : Option Cell → State
  | none => s
  | some v => { s with regI := v }

/-! Taking a fault (60_exceptions.md R280 to R283; 40_step_fsm.md R165). -/

/-- The fault state: status FAULT with the record; every register and every memory cell holds any value;
the tick, the latches and the environment are not touched, since TICK and IO do not run (log 12). -/
def State.takeFault (s : State) (cause : FaultCause) (opcode addr : Cell) : State :=
  { s with
    regA := Config.faultedReg s.draws .a
    regB := Config.faultedReg s.draws .b
    regI := Config.faultedReg s.draws .i
    regS := Config.faultedReg s.draws .s
    regF := Config.faultedReg s.draws .f
    mem := Memory.filled (Config.faultedCell s.draws)
    status := .fault ⟨cause, opcode, addr⟩
    draws := s.draws + 1 }

/-- The end of an instruction's phases up to BASE_INC: the state they give, or the fault they raised,
taken with the opcode and the address it was fetched from (60_exceptions.md R282). `s` is the state
before the fetch. -/
def conclude (o : Operands) (s : State) :
    Except FaultCause State → Host.Outcome State Fault Refusal
  | .ok t => .next t
  | .error cause => .next (s.takeFault cause o.opcode s.regI)

/-! The end of a completed step (20_memory.md R82 to R86). -/

/-- The fast ticker's cell, bits 8 to 3 of t (20_memory.md R86). -/
def fastOf (t : Tick) : Cell := (t >>> 3).setWidth 6

/-- The slow ticker's cell, bits 14 to 9 of t (20_memory.md R86). -/
def slowOf (t : Tick) : Cell := (t >>> 9).setWidth 6

/-- Phase TICK (20_memory.md R86). -/
def State.tickPhase (s : State) : State :=
  ({ s with tick := s.tick + 1 }.poke s.cfg.ioMap.tickFast (fastOf (s.tick + 1))).poke
    s.cfg.ioMap.tickSlow (slowOf (s.tick + 1))

/-- The `inp` hook's value: the next one the host supplied, or a free draw (20_memory.md R84; log 10). -/
def State.inpValue (s : State) : Cell :=
  match s.inpQueue with
  | v :: _ => v
  | [] => Config.inpStub s.draws

/-- The `inp` hook has been called once. -/
def State.inpTaken (s : State) : State :=
  match s.inpQueue with
  | _ :: q => { s with inpQueue := q }
  | [] => { s with draws := s.draws + 1 }

/-- The display window: the four display cells (20_memory.md R85). -/
def State.displayCells (s : State) : Display :=
  ⟨s.read s.cfg.ioMap.disp0, s.read s.cfg.ioMap.disp1, s.read s.cfg.ioMap.disp2, s.read s.cfg.ioMap.disp3⟩

/-- The first action of phase IO: out (20_memory.md R83). -/
def State.ioOut (s : State) : State :=
  { s with outLatch := s.read s.cfg.ioMap.port &&& s.read s.cfg.ioMap.dir }

/-- The second action: the input merge (20_memory.md R84). -/
def State.ioInput (s : State) : State :=
  s.inpTaken.poke s.cfg.ioMap.port
    (portMerged (s.read s.cfg.ioMap.port) (s.read s.cfg.ioMap.dir) s.inpValue)

/-- The third action: display (20_memory.md R85). -/
def State.ioDisplay (s : State) : State := { s with display := s.displayCells }

/-- Phases TICK and IO, in the order of 40_step_fsm.md R158, R159. -/
def State.complete (s : State) : State := s.tickPhase.ioOut.ioInput.ioDisplay

/-- A step that took a fault ends there; a step that did not goes through TICK and IO
(40_step_fsm.md R165; 20_memory.md R90). -/
def State.completeUnlessFaulted (s : State) : State :=
  match s.status with
  | .run => s.complete
  | .fault _ => s

/-- Cells laid down from an address on, each next one modulo 64, past the write filter: the loader
(70_reset_and_hazards.md R313). -/
def State.placeCells (s : State) (a : Cell) : List Cell → State
  | [] => s
  | v :: vs => (s.poke a v).placeCells (a + 1) vs

end Sys2Proof.Machine
end

