-- ==== Sys2Proof/Machine/Operands.lean ====
section
/-! DEFINITION. The operand resolver and the phases around EXECUTE: source values, target locations,
reading and writing a location (40_step_fsm.md R146 to R157). -/

namespace Sys2Proof.Machine

/-- A resolved target location (00_scope.md R14). -/
inductive Loc where
  | mem (a : Cell)
  | reg (r : Reg)
  | flag (x : Flag)
  | imm (v : Cell)
  | none
deriving DecidableEq, Repr

/-- Phase RESOLVE_SRC: the value of the source mode, none where the mode is `None`
(40_step_fsm.md R146, R164). `s` is the state after the fetch. -/
def srcValue (o : Operands) (s : State) : Option Cell :=
  match o.source with
  | .none => none
  | .imm => some o.imm
  | .immInd => some (s.read o.imm)
  | .baseInd => some (s.read s.regB)
  | .stackInd => some (s.read s.regS)
  | .quick k => some (s.read (BitVec.ofNat 6 k.val))
  | .reg r => some (s.reg r)
  | .flag x => some (s.flagCell x)

/-- Phase RESOLVE_TGT: the location of the target mode, never a fault (40_step_fsm.md R149). `s` is the
state after STACK_ADJ. -/
def tgtLoc (o : Operands) (s : State) : Loc :=
  match o.target with
  | .none => .none
  | .imm => .imm o.imm
  | .immInd => .mem o.imm
  | .baseInd => .mem s.regB
  | .stackInd => .mem s.regS
  | .quick k => .mem (BitVec.ofNat 6 k.val)
  | .reg r => .reg r
  | .flag x => .flag x

/-- The target's current value, none where it is no location (40_step_fsm.md R150). -/
def State.readLoc (s : State) : Loc → Option Cell
  | .mem a => some (s.read a)
  | .reg r => some (s.reg r)
  | .flag x => some (s.flagCell x)
  | .imm _ | .none => Option.none

/-- Phase WRITEBACK of a value to a location (40_step_fsm.md R153 to R156). -/
def State.writeLoc (s : State) (v : Cell) : Loc → Except FaultCause State
  | .mem a => s.memWrite a v
  | .reg r => .ok (s.setReg r v)
  | .flag x => .ok (s.setFlag x v)
  | .imm _ | .none => .error .undefinedTarget

/-- What EXECUTE yields (40_step_fsm.md R151): the value WRITEBACK writes, if it writes; the flags, if
the class writes flags; for CALL, the I value set after WRITEBACK. -/
structure Effect where
  write : Option Cell
  flags : Option FlagBits
  jump : Option Cell
deriving DecidableEq, Repr

/-- WRITEBACK, when there is a write. -/
def State.writeback (s : State) (loc : Loc) : Option Cell → Except FaultCause State
  | none => .ok s
  | some v => s.writeLoc v loc

/-- Phases FLAGS, WRITEBACK, CALL's jump and BASE_INC (40_step_fsm.md R152 to R157, R161). -/
def settle (o : Operands) (loc : Loc) (e : Effect) (s : State) : Except FaultCause State :=
  match (s.putFlags e.flags).writeback loc e.write with
  | .error cause => .error cause
  | .ok t => .ok ((t.jumpTo e.jump).baseIncrement o.sideEffect)

/-- The phases of a class that uses its source and does not read its target: `eff` gives EXECUTE's
effect from the source value and the state after STACK_ADJ (40_step_fsm.md R146 to R157). -/
def withSource (o : Operands) (s : State) (eff : Cell → State → Effect) : Except FaultCause State :=
  match srcValue o (s.advance o) with
  | none => .error .undefinedSource
  | some v =>
    settle o (tgtLoc o ((s.advance o).stackAdjust o.sideEffect))
      (eff v ((s.advance o).stackAdjust o.sideEffect)) ((s.advance o).stackAdjust o.sideEffect)

/-- The phases of a class that reads its target and no source: `eff` gives EXECUTE's effect from the
target's value and the state after STACK_ADJ (40_step_fsm.md R147 to R157). -/
def withTarget (o : Operands) (s : State) (eff : Cell → State → Effect) : Except FaultCause State :=
  match ((s.advance o).stackAdjust o.sideEffect).readLoc
      (tgtLoc o ((s.advance o).stackAdjust o.sideEffect)) with
  | none => .error .undefinedTarget
  | some tv =>
    settle o (tgtLoc o ((s.advance o).stackAdjust o.sideEffect))
      (eff tv ((s.advance o).stackAdjust o.sideEffect)) ((s.advance o).stackAdjust o.sideEffect)

/-- The phases of a class that uses its source and reads its target: `eff` gives EXECUTE's effect from
the target's value and the source value (40_step_fsm.md R146 to R157). -/
def withBoth (o : Operands) (s : State) (eff : Cell → Cell → Effect) : Except FaultCause State :=
  match srcValue o (s.advance o) with
  | none => .error .undefinedSource
  | some v => withTarget o s fun tv _ => eff tv v

end Sys2Proof.Machine
end

