-- ==== Sys2Proof/Machine/Alu.lean ====
section
/-! DEFINITION. The 6-bit ALU and its instructions: ADD, SUB, AND, OR, XOR, NOT, INC, DEC, ROL, ROR
(42_alu.md). Each meaning takes the state before the fetch and runs phases FETCH to BASE_INC (log 14). -/

namespace Sys2Proof.Machine

/-- The outputs of the ALU block: the pre-mask result, the stored result and the flags (42_alu.md R202). -/
structure AluResult where
  preMask : Int
  value : Cell
  flags : FlagBits
deriving DecidableEq, Repr

/-- The answer for a pre-mask result (42_alu.md R200, R202). -/
def AluResult.ofPreMask (r : Int) : AluResult := ⟨r, mask6 r, flagRule r⟩

/-- The answer of a rotate: its pre-mask result is the stored value, and C is the bit rotated out
(42_alu.md R202, R211, R212). -/
def AluResult.ofRotated (v : Cell) (carryOut : Bool) : AluResult :=
  ⟨v.toNat, v, flagRuleWithCarry v.toNat carryOut⟩

/-- `tv + s` (42_alu.md R203). -/
def aluAdd (tv v : Cell) : AluResult := .ofPreMask ((tv.toNat : Int) + (v.toNat : Int))

/-- `tv - s` (42_alu.md R204). -/
def aluSub (tv v : Cell) : AluResult := .ofPreMask ((tv.toNat : Int) - (v.toNat : Int))

/-- `tv AND s` (42_alu.md R205). -/
def aluAnd (tv v : Cell) : AluResult := .ofPreMask (tv &&& v).toNat

/-- `tv OR s` (42_alu.md R206). -/
def aluOr (tv v : Cell) : AluResult := .ofPreMask (tv ||| v).toNat

/-- `tv XOR s` (42_alu.md R207). -/
def aluXor (tv v : Cell) : AluResult := .ofPreMask (tv ^^^ v).toNat

/-- `tv XOR 0o77` (42_alu.md R208). -/
def aluNot (tv : Cell) : AluResult := .ofPreMask (tv ^^^ 0o77).toNat

/-- `tv + 1` (42_alu.md R209). -/
def aluInc (tv : Cell) : AluResult := .ofPreMask ((tv.toNat : Int) + 1)

/-- `tv - 1` (42_alu.md R210). -/
def aluDec (tv : Cell) : AluResult := .ofPreMask ((tv.toNat : Int) - 1)

/-- C as the bit a rotate folds in. -/
def carryCell (cin : Bool) : Cell := if cin then 1 else 0

/-- Rotate left through C (42_alu.md R211). -/
def aluRol (tv : Cell) (cin : Bool) : AluResult :=
  .ofRotated ((tv <<< 1) ||| carryCell cin) (tv.getLsbD 5)

/-- Rotate right through C (42_alu.md R212). -/
def aluRor (tv : Cell) (cin : Bool) : AluResult :=
  .ofRotated ((tv >>> 1) ||| (carryCell cin <<< 5)) (tv.getLsbD 0)

/-- The ALU's answer as an effect: the value written back, the flags written. -/
def AluResult.effect (r : AluResult) : Effect := ⟨some r.value, some r.flags, none⟩

/-- ADD: target plus source, without carry-in (42_alu.md R203). -/
def execAdd (o : Operands) (s : State) : Host.Outcome State Fault Refusal :=
  conclude o s (withBoth o s fun tv v => (aluAdd tv v).effect)

/-- SUB: target minus source, without borrow-in (42_alu.md R204). -/
def execSub (o : Operands) (s : State) : Host.Outcome State Fault Refusal :=
  conclude o s (withBoth o s fun tv v => (aluSub tv v).effect)

/-- AND of target and source (42_alu.md R205). -/
def execAnd (o : Operands) (s : State) : Host.Outcome State Fault Refusal :=
  conclude o s (withBoth o s fun tv v => (aluAnd tv v).effect)

/-- OR of target and source (42_alu.md R206). -/
def execOr (o : Operands) (s : State) : Host.Outcome State Fault Refusal :=
  conclude o s (withBoth o s fun tv v => (aluOr tv v).effect)

/-- XOR of target and source (42_alu.md R207). -/
def execXor (o : Operands) (s : State) : Host.Outcome State Fault Refusal :=
  conclude o s (withBoth o s fun tv v => (aluXor tv v).effect)

/-- NOT of the target (42_alu.md R208). -/
def execNot (o : Operands) (s : State) : Host.Outcome State Fault Refusal :=
  conclude o s (withTarget o s fun tv _ => (aluNot tv).effect)

/-- INC: the target plus 1 (42_alu.md R209). -/
def execInc (o : Operands) (s : State) : Host.Outcome State Fault Refusal :=
  conclude o s (withTarget o s fun tv _ => (aluInc tv).effect)

/-- DEC: the target minus 1 (42_alu.md R210). -/
def execDec (o : Operands) (s : State) : Host.Outcome State Fault Refusal :=
  conclude o s (withTarget o s fun tv _ => (aluDec tv).effect)

/-- ROL: the target rotated left through C (42_alu.md R211). -/
def execRol (o : Operands) (s : State) : Host.Outcome State Fault Refusal :=
  conclude o s (withTarget o s fun tv t => (aluRol tv (t.flag .c)).effect)

/-- ROR: the target rotated right through C (42_alu.md R212). -/
def execRor (o : Operands) (s : State) : Host.Outcome State Fault Refusal :=
  conclude o s (withTarget o s fun tv t => (aluRor tv (t.flag .c)).effect)

end Sys2Proof.Machine
end

