-- ==== Sys2Proof/Machine/Control.lean ====
section
/-! DEFINITION. Control transfer and machine control: the jumps, CALL, RETURN, NOP, STOP (43_control.md).
Each meaning takes the state before the fetch and runs phases FETCH to BASE_INC (log 14). -/

namespace Sys2Proof.Machine

/-- The common jump rule: the source is resolved and the side effect applied whether or not the jump is
taken; a jump that is not taken writes nothing (43_control.md R240). -/
def jumpIf (o : Operands) (s : State) (cond : State → Bool) : Except FaultCause State :=
  withSource o s fun v t => ⟨if cond t then some v else none, none, none⟩

/-- JMP (43_control.md R241). -/
def execJmp (o : Operands) (s : State) : Host.Outcome State Fault Refusal :=
  conclude o s (jumpIf o s fun _ => true)

/-- JZ: jump if Zero (43_control.md R242). -/
def execJz (o : Operands) (s : State) : Host.Outcome State Fault Refusal :=
  conclude o s (jumpIf o s fun t => t.flag .z)

/-- JNZ: jump if not Zero (43_control.md R243). -/
def execJnz (o : Operands) (s : State) : Host.Outcome State Fault Refusal :=
  conclude o s (jumpIf o s fun t => !t.flag .z)

/-- JC: jump if Carry (43_control.md R244). -/
def execJc (o : Operands) (s : State) : Host.Outcome State Fault Refusal :=
  conclude o s (jumpIf o s fun t => t.flag .c)

/-- JNC: jump if not Carry (43_control.md R245). -/
def execJnc (o : Operands) (s : State) : Host.Outcome State Fault Refusal :=
  conclude o s (jumpIf o s fun t => !t.flag .c)

/-- JM: jump if Minus (43_control.md R246). -/
def execJm (o : Operands) (s : State) : Host.Outcome State Fault Refusal :=
  conclude o s (jumpIf o s fun t => t.flag .m)

/-- JNM: jump if not Minus (43_control.md R247). -/
def execJnm (o : Operands) (s : State) : Host.Outcome State Fault Refusal :=
  conclude o s (jumpIf o s fun t => !t.flag .m)

/-- CALL: write the post-fetch I to the target, then jump to the source value (43_control.md R248). -/
def execCall (o : Operands) (s : State) : Host.Outcome State Fault Refusal :=
  conclude o s (withSource o s fun v t => ⟨some t.regI, none, some v⟩)

/-- RETURN: write the source value, the popped return address, to the target, I in the expected shape;
no flag (43_control.md R249). -/
def execReturn (o : Operands) (s : State) : Host.Outcome State Fault Refusal :=
  conclude o s (withSource o s fun v _ => ⟨some v, none, none⟩)

/-- NOP: nothing but the record's side effect (43_control.md R250). -/
def execNop (o : Operands) (s : State) : Host.Outcome State Fault Refusal :=
  conclude o s (.ok (((s.advance o).stackAdjust o.sideEffect).baseIncrement o.sideEffect))

/-- STOP: the machine is halted, no fetch, no change (43_control.md R251; 40_step_fsm.md R142). -/
def execStop (_o : Operands) (s : State) : Host.Outcome State Fault Refusal :=
  .next s

end Sys2Proof.Machine
end

