-- ==== Sys2Proof/Machine/DataMovement.lean ====
section
/-! DEFINITION. LOAD, PUSH and POP (41_data_movement.md). Each meaning takes the state before the fetch
and runs phases FETCH to BASE_INC; TICK and IO follow in Step.lean (log 14). -/

namespace Sys2Proof.Machine

/-- The effect of copying a value with its flags. -/
def copyWithFlags (v : Cell) : Effect := ⟨some v, some (flagRule v.toNat), none⟩

/-- LOAD: copy the source value into the target (41_data_movement.md R181). -/
def execLoad (o : Operands) (s : State) : Host.Outcome State Fault Refusal :=
  conclude o s (withSource o s fun v _ => copyWithFlags v)

/-- PUSH: store the source value at the new top of stack; no flag (41_data_movement.md R182). -/
def execPush (o : Operands) (s : State) : Host.Outcome State Fault Refusal :=
  conclude o s (withSource o s fun v _ => ⟨some v, none, none⟩)

/-- POP: the top of stack into the target, with the flags of the value (41_data_movement.md R183). -/
def execPop (o : Operands) (s : State) : Host.Outcome State Fault Refusal :=
  conclude o s (withSource o s fun v _ => copyWithFlags v)

end Sys2Proof.Machine
end

