-- ==== Sys2Proof/Machine/Dispatch.lean ====
section
/-! DEFINITION. One arm per instruction: the dispatch of phase EXECUTE (40_step_fsm.md R151). -/

namespace Sys2Proof.Machine

def exec (i : Instr) (s : State) : Host.Outcome State Fault Refusal :=
  match i with
  | .stop o => Sys2Proof.Machine.execStop o s
  | .nop o => Sys2Proof.Machine.execNop o s
  | .load o => Sys2Proof.Machine.execLoad o s
  | .push o => Sys2Proof.Machine.execPush o s
  | .pop o => Sys2Proof.Machine.execPop o s
  | .add o => Sys2Proof.Machine.execAdd o s
  | .sub o => Sys2Proof.Machine.execSub o s
  | .and o => Sys2Proof.Machine.execAnd o s
  | .or o => Sys2Proof.Machine.execOr o s
  | .xor o => Sys2Proof.Machine.execXor o s
  | .not o => Sys2Proof.Machine.execNot o s
  | .inc o => Sys2Proof.Machine.execInc o s
  | .dec o => Sys2Proof.Machine.execDec o s
  | .rol o => Sys2Proof.Machine.execRol o s
  | .ror o => Sys2Proof.Machine.execRor o s
  | .jmp o => Sys2Proof.Machine.execJmp o s
  | .jz o => Sys2Proof.Machine.execJz o s
  | .jnz o => Sys2Proof.Machine.execJnz o s
  | .jc o => Sys2Proof.Machine.execJc o s
  | .jnc o => Sys2Proof.Machine.execJnc o s
  | .jm o => Sys2Proof.Machine.execJm o s
  | .jnm o => Sys2Proof.Machine.execJnm o s
  | .call o => Sys2Proof.Machine.execCall o s
  | .ret o => Sys2Proof.Machine.execReturn o s

end Sys2Proof.Machine
end

