-- ==== Sys2Proof/Machine/Step.lean ====
section
/-! DEFINITION. One step of the machine (40_step_fsm.md R140, R161). -/

namespace Sys2Proof.Machine

/-- Phases FETCH_OP to IO of a decoded instruction: `exec` runs FETCH to BASE_INC; a step that took no
fault then goes through TICK and IO. -/
def runInstr (i : Instr) (s : State) : Host.Outcome State Fault Refusal :=
  match exec i s with
  | .next t => .next t.completeUnlessFaulted
  | .fault r => .fault r
  | .refused r => .refused r

/-- The step (40_step_fsm.md R161): none in status FAULT (R166), no change when halted (R142), else
fetch, decode and run. -/
def step (s : State) : Host.Outcome State Fault Refusal :=
  match s.status with
  | .fault r => .fault (.faulted r)
  | .run =>
    if s.halted then .next s
    else
      match s.fetchDecode with
      | .error why => .refused (.undecodable why)
      | .ok i => runInstr i s

/-- The state with an instruction's cells laid where the next step fetches, at I and I + 1, past the write
filter as the loader does (log 16, log 17). -/
def State.withFetchWord (s : State) (nbits w : Nat) : State :=
  s.placeCells s.regI (cellsOfWord nbits w)

end Sys2Proof.Machine
end

