-- ==== Sys2Proof/Machine/TestConfig.lean ====
section
/-! DEFINITION. `Tex`, the test configuration of 95_test_vectors.md Part 2. It is NOT the wafer table, which
is OPEN (92_eei_decisions.md D1); statements and tests name it where they need concrete rows. -/

namespace Sys2Proof.Machine

/-- A row of listed names. -/
def listedRow (c : OperationClass) (source target : Mode) (takesImmediate : Bool) (e : SideEffect) :
    OpcodeRecord :=
  ⟨.listed c, .listed source, .listed target, takesImmediate, e⟩

/-- The rows of `Tex` (95_test_vectors.md Part 2): every opcode not listed is NOP. -/
def texRow : Nat → OpcodeRecord
  | 0o01 => listedRow .load .imm (.reg .a) true .none
  | 0o02 => listedRow .load .imm (.reg .b) true .none
  | 0o03 => listedRow .load .baseInd (.reg .a) false .postIncBase
  | 0o04 => listedRow .load (.reg .a) .immInd true .none
  | 0o05 => listedRow .push (.reg .a) .stackInd false .preDecStack
  | 0o06 => listedRow .push (.reg .b) .stackInd false .preDecStack
  | 0o07 => listedRow .pop .stackInd (.reg .f) false .postIncStack
  | 0o10 => listedRow .pop .stackInd (.reg .a) false .postIncStack
  | 0o11 => listedRow .add .imm (.reg .a) true .none
  | 0o12 => listedRow .add .immInd (.reg .a) true .none
  | 0o13 => listedRow .dec .none (.reg .a) false .none
  | 0o14 => listedRow .inc .none (.reg .a) false .none
  | 0o15 => listedRow .jnz .imm (.reg .i) true .none
  | 0o16 => listedRow .jmp .imm (.reg .i) true .none
  | 0o17 => listedRow .call .imm .stackInd true .preDecStack
  | 0o20 => listedRow .ret .stackInd (.reg .i) false .postIncStack
  | 0o21 => listedRow .load (.quick 3) (.reg .a) false .none
  | 0o22 => listedRow .load (.reg .a) (.quick 3) false .none
  | 0o23 => listedRow .sub .imm (.reg .a) true .none
  | 0o24 => listedRow .rol .none (.reg .a) false .none
  | 0o25 => listedRow .ror .none (.reg .a) false .none
  | 0o26 => listedRow .load (.reg .b) (.reg .a) false .none
  | 0o27 => listedRow .load .imm (.flag .c) true .none
  | 0o31 => listedRow .jc .imm (.reg .i) true .none
  | 0o32 => listedRow .jz .imm (.reg .i) true .none
  | 0o33 => listedRow .load (.reg .a) .none false .none
  | 0o34 => listedRow .and .imm (.reg .a) true .none
  | 0o35 => listedRow .or .imm (.reg .a) true .none
  | 0o36 => listedRow .xor .imm (.reg .a) true .none
  | 0o37 => listedRow .not .none (.reg .a) false .none
  | 0o40 => listedRow .add .baseInd (.reg .a) false .postIncBase
  | 0o77 => listedRow .stop .none .none false .none
  | _ => listedRow .nop .none .none false .none

/-- The configuration `Tex`: `stopOpcode` 0o77, the decided parameters as decided, the character set OPEN. -/
def tex : Config := decidedConfig texRow 0o77 Config.openCharset

end Sys2Proof.Machine
end

