-- ==== Sys2Proof/Machine/HostPort.lean ====
section
/-! DEFINITION. What the host may do between steps, and the signals of the block (00_scope.md R8;
40_step_fsm.md R141; 60_exceptions.md R293 to R295; 70_reset_and_hazards.md R310 to R314). -/

namespace Sys2Proof.Machine

/-! Signals (00_scope.md R8); `out` and `disp0..3` are the latches of State. -/

/-- The fault record outputs `fault_opcode` and `fault_addr`, with the cause (60_exceptions.md R282).
DESIGN CHOICE (log 28): the spec does not say what these six-bit outputs carry in status RUN; the model gives
them no value there. -/
def State.faultRecord (s : State) : Option FaultRecord :=
  match s.status with
  | .run => none
  | .fault r => some r

/-- The `faulted` signal: 1 in status FAULT (60_exceptions.md R280). -/
def State.faulted (s : State) : Bool := s.faultRecord.isSome

/-! Reset and loading. -/

/-- Reset, from any state (70_reset_and_hazards.md R310, R312): the registers, the cells below the program
region, t and the latches take the configuration's reset values (10_state.md R36; log 7), the status is RUN;
the program region stays, and so do the environment's queue, the draws and the configuration (log 25). -/
def State.applyReset (s : State) : State :=
  { s with
    regA := s.cfg.resetValues.a
    regB := s.cfg.resetValues.b
    regI := s.cfg.resetValues.i
    regS := s.cfg.resetValues.s
    regF := s.cfg.resetValues.f
    mem := s.mem.fill programBase (resetCell s.cfg.resetValues)
    tick := s.cfg.resetValues.tick
    status := .run
    outLatch := s.cfg.resetValues.outLatch
    display := s.cfg.resetValues.display }

/-- A program image: exactly 40 cells (30_encoding.md R126). -/
abbrev Image := Vector Cell 40

/-- `load(image)`: image cell k goes to address 0o30 + k, past the write filter (70_reset_and_hazards.md R313). -/
def State.load (s : State) (image : Image) : State := s.placeCells 0o30 image.toList

/-- The loader port: `mem[ld_addr] <- ld_data`, for any address (00_scope.md R8). -/
def State.loadCell (s : State) (addr data : Cell) : State := s.poke addr data

/-- The launch premise (70_reset_and_hazards.md R314): a reset and a load, in either order, and no step
since. That the image came from an assembly without errors is the assembler's business (log 22). -/
def State.CleanLaunch (image : Image) (s : State) : Prop :=
  ∃ before : State, s = before.applyReset.load image ∨ s = (before.load image).applyReset

/-! The image's text form (30_encoding.md R126): one character per cell. -/

/-- The cell of a character, if the character set has it (92_eei_decisions.md D39). -/
def cellOfChar (cfg : Config) (ch : Char) : Option Cell :=
  if cfg.charset.toList.idxOf ch < 64 then some (BitVec.ofNat 6 (cfg.charset.toList.idxOf ch)) else none

/-- The character of a cell (92_eei_decisions.md D39). -/
def charOfCell (cfg : Config) (v : Cell) : Char := cfg.charset[v.toNat]'v.isLt

/-- The cells of a text, if every character has one. -/
def cellsOfText (cfg : Config) : List Char → Option (List Cell)
  | [] => some []
  | ch :: text =>
    match cellOfChar cfg ch, cellsOfText cfg text with
    | some v, some vs => some (v :: vs)
    | _, _ => none

/-- The image a text carries: exactly 40 characters of the set. -/
def imageOfText (cfg : Config) (text : List Char) : Option Image :=
  match cellsOfText cfg text with
  | none => none
  | some vs => if h : vs.length = 40 then some ⟨⟨vs⟩, h⟩ else none

/-! `step()` and `run(limit)` (60_exceptions.md R293, R294). -/

/-- What `step()` gives back (60_exceptions.md R293); the `out` value and the display cells stand in the
state's latches. DESIGN CHOICE (log 32): R293 lists the first three only; `refused` is the model's own report of
a step that 40_step_fsm.md R161 refuses. -/
inductive StepReport where
  | halted
  | fault (r : FaultRecord)
  | stepped
  | refused (why : Refusal)
deriving DecidableEq, Repr

/-- `step()` with an `inp` value: one step whose I/O pass draws that value first. A step that calls no
hook leaves the value unused (20_memory.md R90; log 23). DESIGN CHOICE (log 31): the spec gives no result for a
`step()` called in status FAULT, where no step is possible (40_step_fsm.md R166); the model reports
`fault` with the record it holds, again, and leaves the state unchanged. DESIGN CHOICE (log 32): a refused step
gives back the state it was given. -/
def hostStep (inpv : Cell) (s : State) : StepReport × State :=
  match s.status with
  | .fault r => (.fault r, s)
  | .run =>
    if s.halted then (.halted, s)
    else
      match step { s with inpQueue := inpv :: s.inpQueue } with
      | .next t =>
        match t.status with
        | .run => (.stepped, t)
        | .fault r => (.fault r, { t with inpQueue := s.inpQueue })
      | .fault (.faulted r) => (.fault r, s)
      | .refused why => (.refused why, s)

/-- Why `run(limit)` stopped (60_exceptions.md R294); `refused` is the model's own (log 32). -/
inductive RunEnd where
  | halted
  | fault (r : FaultRecord)
  | limit
  | refused (why : Refusal)
deriving DecidableEq, Repr

/-- `run(limit)` with one `inp` value for each of at most `limit` steps: why it stopped, how many steps
completed, and the state (60_exceptions.md R294). DESIGN CHOICE (log 29): the ceiling is tested before the
halt, so a machine that stands at STOP when the ceiling is reached, a ceiling of 0 too, answers `limit`. DESIGN
CHOICE (log 30): the number of steps counts completed steps only, so a step that faults or is refused is not
counted, and a fault in the first step answers 0. DESIGN CHOICE (log 31): called in status FAULT with a ceiling
above 0 it answers `fault` with the record held, 0 steps and the state unchanged; with a ceiling of 0, `limit`
(log 29). DESIGN CHOICE (log 32): a refusal ends the run. -/
def hostRun : List Cell → State → RunEnd × Nat × State
  | [], s => (.limit, 0, s)
  | v :: vs, s =>
    match hostStep v s with
    | (.halted, t) => (.halted, 0, t)
    | (.fault r, t) => (.fault r, 0, t)
    | (.refused why, t) => (.refused why, 0, t)
    | (.stepped, t) => ((hostRun vs t).1, (hostRun vs t).2.1 + 1, (hostRun vs t).2.2)

/-! The clock edge (40_step_fsm.md R141). -/

/-- The inputs of the block at a clock edge (00_scope.md R8). -/
structure Pins where
  rst : Bool
  stepEn : Bool
  ldEn : Bool
  ldAddr : Cell
  ldData : Cell
  inp : Cell
deriving DecidableEq, Repr

/-- One clock edge (40_step_fsm.md R141; 70_reset_and_hazards.md R325). A refused step has no successor
(40_step_fsm.md R145). -/
def clockEdge (p : Pins) (s : State) : Host.Outcome State Fault Refusal :=
  if p.rst then .next s.applyReset
  else if p.ldEn && !p.stepEn then .next (s.loadCell p.ldAddr p.ldData)
  else if p.stepEn then
    match hostStep p.inp s with
    | (.refused why, _) => .refused why
    | (_, t) => .next t
  else .next s

end Sys2Proof.Machine
end

