-- ==== Sys2Proof/Safety.lean ====
section
/-! DEFINITION. The terms in which claims speak of runs: a target that can be written, a completed step, a
run, its normal end, and the invariant of the machine. -/

namespace Sys2Proof.Machine

/-- A location a write through which raises no fault: a register, a flag, or a cell, a program cell only
under the policy `ignore` (40_step_fsm.md R156; 20_memory.md R71). -/
def Loc.writable (cfg : Config) : Loc → Bool
  | .mem a => !isProgram a || cfg.promWritePolicy == .ignore
  | .reg _ | .flag _ => true
  | .imm _ | .none => false

/-- A location that has a value to read (40_step_fsm.md R150). -/
def Loc.readable : Loc → Bool
  | .mem _ | .reg _ | .flag _ => true
  | .imm _ | .none => false

/-- One completed step: not halted, not faulted before or after (20_memory.md R90). -/
def CompletedStep (s t : State) : Prop :=
  s.halted = false ∧ step s = .next t ∧ t.status = .run

/-- n completed steps in a row. -/
inductive CompletedSteps : Nat → State → State → Prop where
  | none (s : State) : CompletedSteps 0 s s
  | more {n : Nat} {s t u : State} :
      CompletedStep s t → CompletedSteps n t u → CompletedSteps (n + 1) s u

/-- A run ends normally exactly when a step finds the machine halted (60_exceptions.md R296). -/
def EndsNormally (s : State) : Prop :=
  ∃ (n : Nat) (t : State), CompletedSteps n s t ∧ t.halted = true

/-- The cells the core keeps up itself agree with what they show, as every completed step leaves them
(20_memory.md R83 to R86): the ticker cells show t, the out latch shows the output bits of PORT, and the
display latch shows the display cells. -/
def State.Coherent (s : State) : Prop :=
  s.read s.cfg.ioMap.tickFast = fastOf s.tick ∧
  s.read s.cfg.ioMap.tickSlow = slowOf s.tick ∧
  s.outLatch = s.read s.cfg.ioMap.port &&& s.read s.cfg.ioMap.dir ∧
  s.display = s.displayCells

/-- The invariant of the machine: the I/O map is a map, the memory is in its canonical form, and in status
RUN the cells the core keeps up are coherent. -/
def State.Inv (s : State) : Prop :=
  s.cfg.ioMap.wellFormed = true ∧ s.mem.wf = true ∧ (s.status = .run → s.Coherent)

end Sys2Proof.Machine
end

