-- ==== Sys2Proof/Certificates/Slice0/Obligations.lean ====
section
/-! DEFINITION. The statements for the provers. A statement whose docstring names a spec decision (D<n> of
92_eei_decisions.md) or a log entry rests on that choice; a statement about an instruction says of every
form of it either what state it leaves or which fault it takes. -/

namespace Sys2Proof.Claims

open Sys2Proof.Machine

/-! Terms of the statements. -/

/-- I after the fetch: past one cell, or two (40_step_fsm.md R143, R144). -/
def postFetchI (o : Operands) (s : State) : Cell := s.regI + (if o.takesImmediate then 2 else 1)

/-- S after STACK_ADJ (40_step_fsm.md R147, R148). -/
def adjustedS (e : SideEffect) (s : State) : Cell :=
  match e with
  | .postIncStack => s.regS + 1
  | .preDecStack => s.regS - 1
  | .none | .postIncBase => s.regS

/-- The state after the fetch: only I differs. The source is resolved in it. -/
def fetched (o : Operands) (s : State) : State := { s with regI := postFetchI o s }

/-- The state after STACK_ADJ: only I and S differ. The target is resolved in it. -/
def adjusted (o : Operands) (s : State) : State :=
  { s with regI := postFetchI o s, regS := adjustedS o.sideEffect s }

/-- The source value of an instruction, none for the mode `None`. -/
def sourceValue (o : Operands) (s : State) : Option Cell := srcValue o (fetched o s)

/-- The target location of an instruction. -/
def targetLoc (o : Operands) (s : State) : Loc := tgtLoc o (adjusted o s)

/-- The target's value, none where the target is no location. -/
def targetValue (o : Operands) (s : State) : Option Cell := (adjusted o s).readLoc (targetLoc o s)

/-- F after phase FLAGS: as it was, or with the three flags written. -/
def flagsPut (s : State) : Option FlagBits → Cell
  | none => s.regF
  | some b => flagWrite s.cfg.flagMask s.regF b

/-- A register after FLAGS and the write of `v` to a location: F first takes the flags; a register
target takes `v`; a flag target sets or clears its bit. `s` is the state after STACK_ADJ. -/
def regWritten (s : State) (fl : Option FlagBits) (loc : Loc) (v : Cell) (r : Reg) : Cell :=
  match loc with
  | .reg q => if q = r then v else if r = .f then flagsPut s fl else s.reg r
  | .flag x =>
    if r = .f then
      if v = 0 then flagsPut s fl &&& ~~~(flagMaskOf s.cfg.flagMask x)
      else flagsPut s fl ||| flagMaskOf s.cfg.flagMask x
    else s.reg r
  | .mem _ | .imm _ | .none => if r = .f then flagsPut s fl else s.reg r

/-- A memory cell after the write of `v` to a location: the target cell and no other; a program cell
keeps its value, PORT takes the output bits only. -/
def cellWritten (s : State) (loc : Loc) (v : Cell) (a : Cell) : Cell :=
  match loc with
  | .mem b =>
    if a ≠ b ∨ 0o30 ≤ a.toNat then s.read a
    else if a = s.cfg.ioMap.port then
      (s.read a &&& ~~~(s.read s.cfg.ioMap.dir)) ||| (v &&& s.read s.cfg.ioMap.dir)
    else v
  | .reg _ | .flag _ | .imm _ | .none => s.read a

/-- BASE_INC on a register's value. -/
def baseBumped (e : SideEffect) (r : Reg) (v : Cell) : Cell :=
  if r = .b ∧ e = .postIncBase then v + 1 else v

/-- What a write, a load or the phases FETCH_OP to BASE_INC of an unfaulted instruction keep: t, the status and the
latches, which TICK, IO and a fault alone change (`exec` ends before TICK: log 14); and the model's own fields, the
supplied inputs (log 10), the draws (log 11) and the configuration (log 3). -/
def RestKept (s t : State) : Prop :=
  t.tick = s.tick ∧ t.status = s.status ∧ t.outLatch = s.outLatch ∧ t.display = s.display ∧
    t.inpQueue = s.inpQueue ∧ t.draws = s.draws ∧ t.cfg = s.cfg

/-- The whole effect of an instruction that writes `v` to its target with the flags `fl`: every register,
every memory cell, and the rest. -/
def Wrote (o : Operands) (s t : State) (v : Cell) (fl : Option FlagBits) : Prop :=
  (∀ r, t.reg r = baseBumped o.sideEffect r (regWritten (adjusted o s) fl (targetLoc o s) v r)) ∧
  (∀ a, t.read a = cellWritten (adjusted o s) (targetLoc o s) v a) ∧
  RestKept s t

/-- The whole effect of an instruction that writes nothing and no flag: I, the stack and base side
effects, and nothing else. -/
def WroteNothing (o : Operands) (s t : State) : Prop :=
  (∀ r, t.reg r = baseBumped o.sideEffect r ((adjusted o s).reg r)) ∧
  (∀ a, t.read a = s.read a) ∧
  RestKept s t

/-- The fault entry: status FAULT with the record (cause, opcode, address of the opcode); t, the latches,
the supplied inputs and the configuration stay; registers and memory hold any value, so nothing is said
of them. The record is decision D29; that a fault is a next state and keeps these is log 3, 10, 12; that the
address of the opcode is I of the state `exec` is given is log 14. -/
def FaultTaken (o : Operands) (s t : State) (cause : FaultCause) : Prop :=
  t.status = .fault ⟨cause, o.opcode, s.regI⟩ ∧ t.tick = s.tick ∧ t.outLatch = s.outLatch ∧
    t.display = s.display ∧ t.inpQueue = s.inpQueue ∧ t.cfg = s.cfg

/-- An instruction answers the fault entry. -/
def Faults (i : Instr) (s : State) (cause : FaultCause) : Prop :=
  ∃ t, exec i s = .next t ∧ FaultTaken i.operands s t cause

/-- The faults of a write to the target: through what is no location, and to a program cell under the
policy `fault`. -/
def WriteFaults (i : Instr) (s : State) : Prop :=
  ((targetLoc i.operands s).readable = false → Faults i s .undefinedTarget) ∧
  (∀ a, targetLoc i.operands s = .mem a → 0o30 ≤ a.toNat → s.cfg.promWritePolicy = .fault →
    Faults i s .promWrite)

/-- A class that writes its source value to its target, with the flags `fl` gives for the value. -/
def CopiesSource (mk : Operands → Instr) (fl : Cell → Option FlagBits) : Prop :=
  ∀ (o : Operands) (s : State),
    (o.source = .none → Faults (mk o) s .undefinedSource) ∧
    ∀ v, sourceValue o s = some v →
      WriteFaults (mk o) s ∧
      ((targetLoc o s).writable s.cfg = true → ∃ t, exec (mk o) s = .next t ∧ Wrote o s t v (fl v))

/-- A class that combines its target's value with its source value; `result` gives the stored value and
the flags. -/
def CombinesSource (mk : Operands → Instr) (result : Cell → Cell → Cell × FlagBits) : Prop :=
  ∀ (o : Operands) (s : State),
    (o.source = .none → Faults (mk o) s .undefinedSource) ∧
    ∀ v, sourceValue o s = some v →
      WriteFaults (mk o) s ∧
      ∀ tv, targetValue o s = some tv → (targetLoc o s).writable s.cfg = true →
        ∃ t, exec (mk o) s = .next t ∧ Wrote o s t (result tv v).1 (some (result tv v).2)

/-- A class that acts on its target's value and C alone, whatever its source mode. -/
def ActsOnTarget (mk : Operands → Instr) (result : Cell → Bool → Cell × FlagBits) : Prop :=
  ∀ (o : Operands) (s : State),
    WriteFaults (mk o) s ∧
    ∀ tv, targetValue o s = some tv → (targetLoc o s).writable s.cfg = true →
      ∃ t, exec (mk o) s = .next t ∧
        Wrote o s t (result tv (s.flag .c)).1 (some (result tv (s.flag .c)).2)

/-- A jump class with a condition on the flags, read in the state before the step. -/
def JumpsWhen (mk : Operands → Instr) (cond : State → Bool) : Prop :=
  ∀ (o : Operands) (s : State),
    (o.source = .none → Faults (mk o) s .undefinedSource) ∧
    ∀ v, sourceValue o s = some v →
      (cond s = true → WriteFaults (mk o) s ∧
        ((targetLoc o s).writable s.cfg = true → ∃ t, exec (mk o) s = .next t ∧ Wrote o s t v none)) ∧
      (cond s = false → ∃ t, exec (mk o) s = .next t ∧ WroteNothing o s t)

/-- The flags of a value that is stored as it is: C clear, M its bit 5, Z when it is 0. -/
def flagsOfValue (v : Cell) : FlagBits := ⟨false, v.getLsbD 5, v == 0⟩

/-- The classes that use their source (40_step_fsm.md R146). -/
def usesSource : OperationClass → Bool
  | .load | .push | .pop | .add | .sub | .and | .or | .xor => true
  | .jmp | .jz | .jnz | .jc | .jnc | .jm | .jnm | .call | .ret => true
  | .stop | .nop | .inc | .dec | .not | .rol | .ror => false

/-- The classes that write flags (10_state.md R27). -/
def writesFlags : OperationClass → Bool
  | .load | .pop | .add | .sub | .and | .or | .xor | .not | .inc | .dec | .rol | .ror => true
  | .stop | .nop | .push | .jmp | .jz | .jnz | .jc | .jnc | .jm | .jnm | .call | .ret => false

/-- Instructions run one after another, each with its TICK and IO, none faulting. -/
def runAll : List Instr → State → Option State
  | [], s => some s
  | i :: is, s =>
    match runInstr i s with
    | .next t => if t.status = .run then runAll is t else none
    | .fault _ => none
    | .refused _ => none

/-- The source values instructions find as they run one after another. -/
def sourceValues : List Instr → State → Option (List Cell)
  | [], _ => some []
  | i :: is, s =>
    match sourceValue i.operands s, runAll [i] s with
    | some v, some t => (sourceValues is t).map (v :: ·)
    | _, _ => none

/-- A push in the expected shape, from any source (30_encoding.md R112). -/
def isPush (i : Instr) : Bool :=
  i.cls == .push && i.operands.source != .none && i.operands.target == .stackInd &&
    i.operands.sideEffect == .preDecStack

/-- A pop in the expected shape into a register other than S, or into a flag (30_encoding.md R112). -/
def isPop (i : Instr) : Bool :=
  i.cls == .pop && i.operands.source == .stackInd && i.operands.sideEffect == .postIncStack &&
    match i.operands.target with
    | .reg r => r != .s
    | .flag _ => true
    | .none | .imm | .immInd | .baseInd | .stackInd | .quick _ => false

/-- A cell that keeps what an instruction stores in it through the end of the step and after: not
PORT, not a ticker cell, not a program cell (20_memory.md R68). -/
def keepsValue (cfg : Config) (a : Cell) : Bool :=
  decide (a.toNat < 0o30) && a != cfg.ioMap.port && a != cfg.ioMap.tickSlow && a != cfg.ioMap.tickFast

/-- One rotate as a map on the target's six bits and C. -/
def rotateStep (rotate : Cell → Bool → AluResult) (p : Cell × Bool) : Cell × Bool :=
  ((rotate p.1 p.2).value, (rotate p.1 p.2).flags.c)

end Sys2Proof.Claims

open Sys2Proof Sys2Proof.Machine Sys2Proof.Claims

/-! Reset, load, and the host. -/

/-- What the machine holds right after reset. The values are the spec's own choice (10_state.md section 4,
decision D14; log 7); the program region holds any value (log 8). -/
def Obligations.ResetStateHoldsTheDecidedValues : Prop :=
  State.reset.regA = 0 ∧ State.reset.regB = 0 ∧ State.reset.regI = 0o30 ∧ State.reset.regS = 0o20 ∧
  State.reset.regF = 0 ∧ (∀ x, State.reset.flag x = false) ∧
  (∀ a : Cell, a.toNat < 0o30 → State.reset.read a = 0) ∧
  (∀ a : Cell, 0o30 ≤ a.toNat → State.reset.read a = Config.powerUpCell a.toNat) ∧
  State.reset.tick = 0 ∧ State.reset.status = .run ∧ State.reset.outLatch = 0 ∧
  State.reset.display = ⟨0, 0, 0, 0⟩

/-- A reset from any state, a faulted one too: the registers, the cells below the program region, t and the
latches take the configuration's reset values, each such cell 0 where they are the decided ones; the status is
RUN; the program region keeps its cells, and reset after load is load after reset (70_reset_and_hazards.md
section 1, decision D14; log 7, 25). That the configuration stays is log 3. -/
def Obligations.HostResetRestoresAllButTheProgram : Prop :=
  ∀ s : State,
    s.applyReset.regA = s.cfg.resetValues.a ∧ s.applyReset.regB = s.cfg.resetValues.b ∧
    s.applyReset.regI = s.cfg.resetValues.i ∧ s.applyReset.regS = s.cfg.resetValues.s ∧
    s.applyReset.regF = s.cfg.resetValues.f ∧
    (∀ k : Fin 24, s.applyReset.read (BitVec.ofNat 6 k.val) = s.cfg.resetValues.cells[k]) ∧
    (s.cfg.resetValues = decidedResetValues →
      (∀ a : Cell, a.toNat < 0o30 → s.applyReset.read a = 0) ∧ s.applyReset.tick = 0 ∧
        s.applyReset.outLatch = 0 ∧ s.applyReset.display = ⟨0, 0, 0, 0⟩) ∧
    (∀ a : Cell, 0o30 ≤ a.toNat → s.applyReset.read a = s.read a) ∧
    s.applyReset.tick = s.cfg.resetValues.tick ∧ s.applyReset.status = .run ∧
    s.applyReset.faulted = false ∧ s.applyReset.outLatch = s.cfg.resetValues.outLatch ∧
    s.applyReset.display = s.cfg.resetValues.display ∧ s.applyReset.cfg = s.cfg ∧
    (∀ image : Image, ∀ a : Cell, (s.load image).applyReset.read a = (s.applyReset.load image).read a)

/-- Under the launch premise, a reset and a load in either order, the state is exactly the reset values
and the image (70_reset_and_hazards.md section 1, decisions D14, D15, D16; log 7, 22). -/
def Obligations.CleanLaunchFixesTheState : Prop :=
  ∀ (image : Image) (s : State), s.CleanLaunch image →
    s.regA = s.cfg.resetValues.a ∧ s.regB = s.cfg.resetValues.b ∧ s.regI = s.cfg.resetValues.i ∧
    s.regS = s.cfg.resetValues.s ∧ s.regF = s.cfg.resetValues.f ∧
    (∀ k : Fin 24, s.read (BitVec.ofNat 6 k.val) = s.cfg.resetValues.cells[k]) ∧
    (∀ k : Fin 40, s.read (BitVec.ofNat 6 (0o30 + k.val)) = image[k]) ∧
    s.tick = s.cfg.resetValues.tick ∧ s.status = .run ∧ s.outLatch = s.cfg.resetValues.outLatch ∧
    s.display = s.cfg.resetValues.display ∧
    (s.cfg.resetValues = decidedResetValues →
      (∀ a : Cell, a.toNat < 0o30 → s.read a = 0) ∧ s.tick = 0 ∧ s.outLatch = 0 ∧
        s.display = ⟨0, 0, 0, 0⟩)

/-- `load(image)` puts image cell k at 0o30 + k and changes nothing else (70_reset_and_hazards.md section 1,
decision D16). What it keeps beside the machine's own state: log 3, 10, 11 (`RestKept`). -/
def Obligations.LoadPlacesTheImageInTheProgramRegion : Prop :=
  ∀ (s : State) (image : Image),
    (∀ k : Fin 40, (s.load image).read (BitVec.ofNat 6 (0o30 + k.val)) = image[k]) ∧
    (∀ a : Cell, a.toNat < 0o30 → (s.load image).read a = s.read a) ∧
    (∀ r, (s.load image).reg r = s.reg r) ∧ RestKept s (s.load image)

/-- The loader port writes one cell, of any region, PORT and program cells too, unmasked and unfiltered, and
changes nothing else (00_scope.md section 4, decision D33). That the configuration, the supplied inputs and the
draws stay is the model's (log 3, 10, 11); so is the last clause, that the memory keeps its canonical form (log
8, 9). -/
def Obligations.LoaderPortWritesOneCellUnfiltered : Prop :=
  ∀ (s : State) (a v : Cell),
    (s.loadCell a v).read a = v ∧
    (∀ b : Cell, b ≠ a → (s.loadCell a v).read b = s.read b) ∧
    (∀ r, (s.loadCell a v).reg r = s.reg r) ∧ RestKept s (s.loadCell a v) ∧
    (s.mem.wf = true → (s.loadCell a v).mem.wf = true)

/-- The clock edge: reset first, else the loader when no step is enabled, else one step in status RUN, else no
change (40_step_fsm.md section 1, decision D33). That the `inp` pin is put before the supplied inputs is log 10;
that an edge in FAULT or when halted leaves it unused is log 13 and 23. -/
def Obligations.ClockEdgeFollowsItsPriorities : Prop :=
  ∀ (p : Pins) (s : State),
    (p.rst = true → clockEdge p s = .next s.applyReset) ∧
    (p.rst = false → p.ldEn = true → p.stepEn = false →
      clockEdge p s = .next (s.loadCell p.ldAddr p.ldData)) ∧
    (p.rst = false → p.stepEn = false → p.ldEn = false → clockEdge p s = .next s) ∧
    (p.rst = false → p.stepEn = true → s.faulted = true → clockEdge p s = .next s) ∧
    (p.rst = false → p.stepEn = true → s.halted = true → clockEdge p s = .next s) ∧
    (p.rst = false → p.stepEn = true → s.halted = false →
      ∀ t, step { s with inpQueue := p.inp :: s.inpQueue } = .next t → t.status = .run →
        clockEdge p s = .next t)

/-- A run of the host that ends halted took exactly the machine's own completed steps, drawing the supplied
inputs one per step, and the machine is halted after them (60_exceptions.md section 4, decision D38). That the
inputs stand in a queue is log 10, that the step which finds the halt leaves its input unused is log 23, and
that completed steps alone are counted is log 30. -/
def Obligations.HostRunIsCompletedStepsToAHalt : Prop :=
  ∀ (inps : List Cell) (s t : State) (n : Nat),
    s.inpQueue = [] → hostRun inps s = (.halted, n, t) →
      n ≤ inps.length ∧ t.halted = true ∧ t.inpQueue = [] ∧
      CompletedSteps n { s with inpQueue := inps } { t with inpQueue := inps.drop n } ∧
      EndsNormally { s with inpQueue := inps }

/-! The step. -/

/-- A step runs the decoded instruction: where the cells at I decode to `i` and `exec` answers `t`, the step
answers `t` itself for STOP, `t` with TICK and IO run if no fault was taken, `t` as it is if one was. That
`exec` ends before TICK and IO is log 14, that a fault is a next state is log 12, and what decode admits is log
15 and 18. -/
def Obligations.StepRunsTheDecodedInstruction : Prop :=
  ∀ (s t : State) (i : Instr) (rest : List Cell),
    s.status = .run → decode s.cfg [s.read s.regI, s.read (s.regI + 1)] = .ok (i, rest) →
    exec i s = .next t →
      i.wellFormed s.cfg = true ∧
      (i.cls = .stop → step s = .next t) ∧
      (i.cls ≠ .stop → t.status = .run → step s = .next t.tickPhase.ioOut.ioInput.ioDisplay) ∧
      (i.cls ≠ .stop → t.status ≠ .run → step s = .next t)

/-- A machine that finds the STOP opcode at I stays exactly as it is, however many steps it is given. -/
def Obligations.HaltedMachineStaysAsItIs : Prop :=
  ∀ (s : State) (n : Nat),
    s.status = .run → s.read s.regI = s.cfg.stopOpcode →
      s.halted = true ∧ Host.Core.run Sys2Proof.core n s = .next s

/-- A fault ends the step, sets status FAULT with a record, and there is no step after it until a reset:
no handler runs and t stands still (60_exceptions.md section 1; that the record's address is the opcode's,
and that the fault lasts until reset, is decision D29; log 12, 13). -/
def Obligations.FaultEndsTheStepUntilReset : Prop :=
  ∀ s t : State, s.status = .run → step s = .next t → t.status ≠ .run →
    t.faulted = true ∧ t.tick = s.tick ∧
    ∃ r : FaultRecord, t.status = .fault r ∧ t.faultRecord = some r ∧
      r.opcode = s.read s.regI ∧ r.addr = s.regI ∧
      (∀ n, Host.Core.run Sys2Proof.core (n + 1) t = .fault (.faulted r)) ∧
      t.applyReset.status = .run

/-- Every fault is one of the three of the table: a source `None` that is used, a target that is no location, or
a program cell under the policy `fault` (60_exceptions.md section 1, decisions D13, D24, D25), and the first in
phase order is the one reported (decision D41). That a fault is a next state is log 12; that the record's
address is I of the state `exec` is given is log 14. The record itself is decision D29. -/
def Obligations.EveryFaultHasACauseOfTheTable : Prop :=
  ∀ (i : Instr) (s t : State) (r : FaultRecord),
    s.status = .run → exec i s = .next t → t.status = .fault r →
      r.opcode = i.operands.opcode ∧ r.addr = s.regI ∧
      match r.cause with
      | .undefinedSource => usesSource i.cls = true ∧ i.operands.source = .none
      | .undefinedTarget =>
        (usesSource i.cls = true → i.operands.source ≠ .none) ∧
          (targetLoc i.operands s).readable = false
      | .promWrite =>
        (usesSource i.cls = true → i.operands.source ≠ .none) ∧ s.cfg.promWritePolicy = .fault ∧
          ∃ a : Cell, targetLoc i.operands s = .mem a ∧ 0o30 ≤ a.toNat

/-- No instruction stops the model: `exec` answers a next state for every instruction and every state
(30_encoding.md section 3; 60_exceptions.md section 1). What else it says is the model's choice: a fault is a
next state, and t stays in it (log 12); t stays otherwise because `exec` ends before TICK (log 14); the
configuration stays (log 3). -/
def Obligations.EveryInstructionAnswersANextState : Prop :=
  ∀ (i : Instr) (s : State), ∃ t, exec i s = .next t ∧ t.cfg = s.cfg ∧ t.tick = s.tick

/-- The invariant holds at reset; the reset values are the spec's choice (decision D14; log 7), the I/O map too
(decision D8; log 5), and the canonical form of the memory is the model's (log 8, 9). -/
def Obligations.ResetStateMeetsTheInvariant : Prop := State.reset.Inv

/-- Every step keeps the invariant: in status RUN the ticker cells showing t, the out latch the output bits of
PORT, the display latch the display cells (20_memory.md section 5, decisions D8, D11, D12; log 5). That the
memory keeps its canonical form, in a faulted state too, is the model's (log 8, 9, 12), and so is that the I/O
map, part of the configuration, stays (log 3). -/
def Obligations.EveryStepKeepsTheInvariant : Prop :=
  ∀ s t : State, s.Inv → step s = .next t → t.Inv

/-- No step changes the configuration (log 3). A faulting step keeps it too (log 12). -/
def Obligations.EveryStepKeepsTheConfiguration : Prop :=
  ∀ (n : Nat) (s t : State), Host.Core.run Sys2Proof.core n s = .next t → t.cfg = s.cfg

/-- The tick counter counts completed steps modulo 32768, and from a coherent state the ticker cells show it
(20_memory.md section 5, decision D12). The ticker cells' addresses: log 5. -/
def Obligations.TickerCountsCompletedSteps : Prop :=
  ∀ (n : Nat) (s t : State), CompletedSteps n s t →
    t.tick = s.tick + BitVec.ofNat 15 n ∧
    (s.Inv → s.status = .run →
      (t.read t.cfg.ioMap.tickFast).toNat = (s.tick.toNat + n) % 32768 / 8 % 64 ∧
      (t.read t.cfg.ioMap.tickSlow).toNat = (s.tick.toNat + n) % 32768 / 512)

/-- No run of completed steps changes a program cell, under either policy (20_memory.md sections 1 and 2,
decision D13). The I/O map and the policy as parameters: log 5, 6. -/
def Obligations.ProgramRegionSurvivesCompletedSteps : Prop :=
  ∀ (n : Nat) (s t : State), s.cfg.ioMap.wellFormed = true → CompletedSteps n s t →
    ∀ a : Cell, 0o30 ≤ a.toNat → t.read a = s.read a

/-- The input pins reach PORT and nothing else in the step that samples them: no register, no other cell, not
the status, not t, not the latches; they change no control flow (60_exceptions.md section 2, decision D31;
20_memory.md section 5, decision D11). Of the registers and cells of a faulted state it says nothing: they hold
any value (log 12). That the inputs stand in a queue is log 10; that t and the latches of a faulted state are
kept is log 12. -/
def Obligations.InputPinsChangeOnlyPort : Prop :=
  ∀ (s t u : State) (p q : List Cell), s.cfg.ioMap.wellFormed = true →
    step { s with inpQueue := p } = .next t → step { s with inpQueue := q } = .next u →
      (t.status = .run →
        (∀ r, t.reg r = u.reg r) ∧ ∀ a : Cell, a ≠ s.cfg.ioMap.port → t.read a = u.read a) ∧
      t.status = u.status ∧ t.tick = u.tick ∧ t.outLatch = u.outLatch ∧ t.display = u.display

/-! Encoding. -/

/-- Decode of encode is the identity on well-formed instructions, whatever cells follow. What is well-formed
follows decisions D2, D3 and D26; an immediate that is not fetched is 0 (log 15), and the decoder's refusals are
log 18. -/
def Obligations.DecodeOfEncodeIsTheInstruction : Prop :=
  ∀ (cfg : Config) (i : Instr) (rest : List Cell), i.wellFormed cfg = true →
    decode cfg (encode i ++ rest) = .ok (i, rest)

/-- The cells a fetched instruction stands in: the opcode at I, the immediate at I + 1 modulo 64 exactly
when the opcode's record takes one, and no other length. -/
def Obligations.FetchedInstructionStandsAtI : Prop :=
  ∀ (s : State) (i : Instr), s.fetchDecode = .ok i →
    i.operands.opcode = s.read s.regI ∧
    i.operands.takesImmediate = (s.cfg.isa (s.read s.regI)).takesImmediate ∧
    (i.operands.takesImmediate = true →
      i.operands.imm = s.read (s.regI + 1) ∧ encode i = [s.read s.regI, s.read (s.regI + 1)]) ∧
    (i.operands.takesImmediate = false → encode i = [s.read s.regI])

/-- A word placed for the next step is what that step fetches: the decoder sees the word's cells, and no other
cell, register or hidden state is changed. Placing a word and numbering its bits are the model's own (log 16,
17); what it keeps beside the machine's own state: log 3, 10, 11 (`RestKept`). -/
def Obligations.PlacedWordIsWhatTheStepFetches : Prop :=
  ∀ (s : State) (nbits w : Nat),
    (s.withFetchWord nbits w).fetchCells = cellsOfWord nbits w ∧
    (∀ i rest, decode s.cfg (cellsOfWord nbits w) = .ok (i, rest) →
      (s.withFetchWord nbits w).fetchDecode = .ok i) ∧
    (∀ a : Cell, a ≠ s.regI → a ≠ s.regI + 1 → (s.withFetchWord nbits w).read a = s.read a) ∧
    (∀ r, (s.withFetchWord nbits w).reg r = s.reg r) ∧ RestKept s (s.withFetchWord nbits w)

/-- Where the character set names 64 different characters, a cell's character is the character of that cell and
of no other (00_scope.md section 5, decision D39). The set itself is open (log 20). -/
def Obligations.CharacterSetRoundTrip : Prop :=
  ∀ (cfg : Config) (v : Cell), cfg.charsetInjective = true →
    cellOfChar cfg (charOfCell cfg v) = some v

/-- Under a table whose rows are all admitted, every opcode with any next cell decodes to an instruction with
that opcode and the fields of its record (30_encoding.md section 3; that rows are admitted rests on decisions
D2, D3 and D26, log 18); and under any table no step in status RUN answers the fault outcome, which is raised in
status FAULT alone (log 13). That decode never enters status FAULT is `NoFaultIsRaisedAtDecode`. That a fault
taken is a next state is log 12. -/
def Obligations.DecodeIsTotalOnAdmittedTables : Prop :=
  (∀ (cfg : Config) (op v : Cell), cfg.tableAdmitted = true →
    ∃ (i : Instr) (rest : List Cell), decode cfg [op, v] = .ok (i, rest) ∧
      i.operands.opcode = op ∧ cfg.isa op = i.record) ∧
  ∀ (s : State) (f : Fault), s.status = .run → step s ≠ .fault f

/-- No opcode value raises a fault at decode (30_encoding.md section 3; the refusal is decision D3, log 18):
from status RUN and not halted, a fetch that does not decode is refused, so it gives no state and no fault; and
a step that ends in status FAULT had decoded an instruction, whose own phases gave that state. That a fault
taken is a next state is log 12; that `exec` is the part of the step up to it is log 14. -/
def Obligations.NoFaultIsRaisedAtDecode : Prop :=
  ∀ s : State, s.status = .run →
    (∀ why, s.halted = false → s.fetchDecode = .error why → step s = .refused (.undecodable why)) ∧
    (∀ t, step s = .next t → t.status ≠ .run → ∃ i, s.fetchDecode = .ok i ∧ exec i s = .next t)

/-- A row the model cannot give a meaning is refused, by name, and the step has no successor (30_encoding.md
section 3, decisions D2, D3, D26). The names and their order are log 18. -/
def Obligations.UnadmittedRowsAreRefusedByName : Prop :=
  ∀ s : State, s.status = .run → s.halted = false →
    (∀ name, (s.cfg.isa (s.read s.regI)).cls = .unlisted name →
      step s = .refused (.undecodable (.classNotListed (s.read s.regI) name))) ∧
    (∀ c src tgt, (s.cfg.isa (s.read s.regI)).cls = .listed c →
      (s.cfg.isa (s.read s.regI)).source = .listed src →
      (s.cfg.isa (s.read s.regI)).target = .listed tgt →
      (c.status = .decision → s.cfg.admitDecidedClasses = false →
        step s = .refused (.undecodable (.classNotAdmitted (s.read s.regI) c))) ∧
      (s.cfg.admits c = true → immediateFetched src tgt (s.cfg.isa (s.read s.regI)).takesImmediate = false →
        step s = .refused (.undecodable (.immediateNotFetched (s.read s.regI)))) ∧
      (s.cfg.admits c = true → immediateFetched src tgt (s.cfg.isa (s.read s.regI)).takesImmediate = true →
        c = .stop → step s = .refused (.undecodable (.stopDisagrees (s.read s.regI)))))

/-- Words of the spec's test configuration decode to the instructions they stand for (95_test_vectors.md Part 2;
the table is a test table, not the wafer's). The immediate of a one-cell instruction is 0 (log 15). -/
def Obligations.TestTableWordsDecode : Prop :=
  decode tex [0o03, 0o00] =
    .ok (.load ⟨0o03, .baseInd, .reg .a, false, 0, .postIncBase⟩, [0o00]) ∧
  decode tex [0o11, 0o20] = .ok (.add ⟨0o11, .imm, .reg .a, true, 0o20, .none⟩, []) ∧
  decode tex [0o17, 0o50] = .ok (.call ⟨0o17, .imm, .stackInd, true, 0o50, .preDecStack⟩, []) ∧
  decode tex [0o77, 0o00] = .ok (.stop ⟨0o77, .none, .none, false, 0, .none⟩, [0o00])

/-! Operands. -/

/-- The value of every source mode (40_step_fsm.md section 3; decisions D7, D26, D35). The decisions are
followed as log 4 and 24 say. -/
def Obligations.SourceModesReadTheirOperands : Prop :=
  ∀ (o : Operands) (s : State),
    (o.source = .none → srcValue o s = none) ∧
    (o.source = .imm → srcValue o s = some o.imm) ∧
    (o.source = .immInd → srcValue o s = some (s.read o.imm)) ∧
    (o.source = .baseInd → srcValue o s = some (s.read s.regB)) ∧
    (o.source = .stackInd → srcValue o s = some (s.read s.regS)) ∧
    (∀ k, o.source = .quick k → srcValue o s = some (s.read (BitVec.ofNat 6 k.val))) ∧
    (∀ r, o.source = .reg r → srcValue o s = some (s.reg r)) ∧
    (∀ x, o.source = .flag x → srcValue o s = some (if s.flag x = true then 1 else 0))

/-- The location of every target mode (40_step_fsm.md section 3; decision D35). The decision is followed as log
24 says. -/
def Obligations.TargetModesNameTheirLocations : Prop :=
  ∀ (o : Operands) (s : State),
    (o.target = .none → tgtLoc o s = .none) ∧
    (o.target = .imm → tgtLoc o s = .imm o.imm) ∧
    (o.target = .immInd → tgtLoc o s = .mem o.imm) ∧
    (o.target = .baseInd → tgtLoc o s = .mem s.regB) ∧
    (o.target = .stackInd → tgtLoc o s = .mem s.regS) ∧
    (∀ k, o.target = .quick k → tgtLoc o s = .mem (BitVec.ofNat 6 k.val)) ∧
    (∀ r, o.target = .reg r → tgtLoc o s = .reg r) ∧
    (∀ x, o.target = .flag x → tgtLoc o s = .flag x)

/-- WRITEBACK to a register, whatever the class: the register takes the value in place of any adjustment
STACK_ADJ made, BASE_INC then acts on the new B, no other register but F takes a value of the instruction's,
memory stays, and a write to I makes the next step fetch at the value. `s` is the state after STACK_ADJ. -/
def Obligations.RegisterWritebackReplacesTheAdjustment : Prop :=
  ∀ (o : Operands) (e : Effect) (s : State) (r : Reg) (v : Cell), e.write = some v → e.jump = none →
    ∃ t, settle o (.reg r) e s = .ok t ∧
      (r ≠ .b → t.reg r = v) ∧
      (r = .b → t.regB = if o.sideEffect = .postIncBase then v + 1 else v) ∧
      (r = .i → t.complete.fetchCells = [t.complete.read v, t.complete.read (v + 1)]) ∧
      (∀ q, q ≠ r → q ≠ .f → t.reg q = baseBumped o.sideEffect q (s.reg q)) ∧
      (∀ a, t.read a = s.read a)

/-! Flags. -/

/-- The flag rule on every pre-mask result: Z on r itself, M on its sign or bit 5, C on its range; and the
stored value is r modulo 64. How a negative r is masked is general knowledge (93_implementation_defined.md
G1; log 19). -/
def Obligations.FlagRuleReadsThePreMaskResult : Prop :=
  ∀ r : Int,
    ((flagRule r).z = true ↔ r = 0) ∧
    ((flagRule r).m = true ↔ r < 0 ∨ r / 32 % 2 = 1) ∧
    ((flagRule r).c = true ↔ r < 0 ∨ 64 ≤ r) ∧
    ((mask6 r).toNat : Int) = r % 64

/-- The flag write: each flag reads back as written, and every bit of F that is no flag is kept (42_alu.md
section 1, decisions D4, D5). That the masks are a parameter and their union is cleared is log 4. -/
def Obligations.FlagWriteSetsTheFlagsAndKeepsTheRest : Prop :=
  ∀ (k : FlagMasks) (f : Cell) (b : FlagBits), k.wellFormed = true →
    flagSet k (flagWrite k f b) .c = b.c ∧ flagSet k (flagWrite k f b) .m = b.m ∧
    flagSet k (flagWrite k f b) .z = b.z ∧
    flagWrite k f b &&& ~~~(k.c ||| k.m ||| k.z) = f &&& ~~~(k.c ||| k.m ||| k.z)

/-- A write to one flag sets it exactly when the value is not 0 and leaves the other two flags and the bits that
are no flag (10_state.md section 1, decision D7). The masks are a parameter (log 4). -/
def Obligations.FlagTargetChangesOneFlag : Prop :=
  ∀ (k : FlagMasks) (f v : Cell) (x y : Flag), k.wellFormed = true →
    flagSet k (flagStore k f x v) x = (v != 0) ∧
    (y ≠ x → flagSet k (flagStore k f x v) y = flagSet k f y) ∧
    flagStore k f x v &&& ~~~(k.c ||| k.m ||| k.z) = f &&& ~~~(k.c ||| k.m ||| k.z)

/-- F is written only by the flag-writing classes, or through a target that is F or a flag (10_state.md section
1). `exec` covers the phases up to BASE_INC (log 14); a faulted state is left out, its F being any value (log
12). -/
def Obligations.OnlyFlagClassesOrFlagTargetsChangeF : Prop :=
  ∀ (i : Instr) (s t : State), writesFlags i.cls = false → s.status = .run →
    exec i s = .next t → t.status = .run → t.regF ≠ s.regF →
      i.operands.target = .reg .f ∨ ∃ x, i.operands.target = .flag x

/-- Seven rotates one way restore the six bits and C, and each direction undoes the other (42_alu.md section 5,
decision D19). The decision is followed as log 24 says. -/
def Obligations.SevenRotatesRestoreTargetAndCarry : Prop :=
  ∀ p : Cell × Bool,
    (rotateStep aluRol)^[7] p = p ∧ (rotateStep aluRor)^[7] p = p ∧
    rotateStep aluRol (rotateStep aluRor p) = p ∧ rotateStep aluRor (rotateStep aluRol p) = p

/-! Memory and I/O. -/

/-- A write by an instruction to any cell below the program region but PORT lands whole and reads back at once,
and every other cell keeps its value. The ticker cells are among them: their write lands too, and only the tick
phase of the same step overwrites it (20_memory.md section 2). What it keeps beside the machine's own state: log
3, 10, 11 (`RestKept`). -/
def Obligations.FreeCellReadsBackWhatWasWritten : Prop :=
  ∀ (s : State) (a v : Cell), a.toNat < 0o30 → a ≠ s.cfg.ioMap.port →
    ∃ t, s.memWrite a v = .ok t ∧ t.read a = v ∧ (∀ b : Cell, b ≠ a → t.read b = s.read b) ∧
      (∀ r, t.reg r = s.reg r) ∧ RestKept s t

/-- The write filter on PORT and on program cells: PORT takes the output bits and keeps the input bits (decision
D10); a program cell keeps its value under `ignore` and raises PromWrite under `fault` (decision D13;
20_memory.md section 2). The decisions are followed as log 5, 6 and 24 say. -/
def Obligations.WriteFilterGuardsPortAndProgram : Prop :=
  ∀ (s : State) (v : Cell),
    (s.cfg.ioMap.port.toNat < 0o30 →
      ∃ t, s.memWrite s.cfg.ioMap.port v = .ok t ∧
        (∀ k < 6, (t.read s.cfg.ioMap.port).getLsbD k =
          if (s.read s.cfg.ioMap.dir).getLsbD k then v.getLsbD k
          else (s.read s.cfg.ioMap.port).getLsbD k) ∧
        (∀ b : Cell, b ≠ s.cfg.ioMap.port → t.read b = s.read b)) ∧
    (∀ a : Cell, 0o30 ≤ a.toNat →
      (s.cfg.promWritePolicy = .ignore → s.memWrite a v = .ok s) ∧
      (s.cfg.promWritePolicy = .fault → s.memWrite a v = .error .promWrite))

/-- The tick phase: t rises by one modulo 32768, the fast cell shows t / 8 and the slow cell t / 512, each
modulo 64, whatever was written to them, and every other cell and register stays (20_memory.md section 5,
decision D12). The decision is followed as log 5 says. -/
def Obligations.TickPhaseRecomputesBothTickerCells : Prop :=
  ∀ s : State, s.cfg.ioMap.wellFormed = true →
    s.tickPhase.tick.toNat = (s.tick.toNat + 1) % 32768 ∧
    (s.tickPhase.read s.cfg.ioMap.tickFast).toNat = (s.tick.toNat + 1) % 32768 / 8 % 64 ∧
    (s.tickPhase.read s.cfg.ioMap.tickSlow).toNat = (s.tick.toNat + 1) % 32768 / 512 ∧
    (∀ a : Cell, a ≠ s.cfg.ioMap.tickFast → a ≠ s.cfg.ioMap.tickSlow → s.tickPhase.read a = s.read a) ∧
    (∀ r, s.tickPhase.reg r = s.reg r)

/-- The out and display actions of the I/O pass: the out latch takes PORT masked by DIR as they stand
before the input merge, the display latch the four display cells. -/
def Obligations.IoPassDrivesOutAndDisplay : Prop :=
  ∀ s : State, s.cfg.ioMap.wellFormed = true →
    s.ioOut.ioInput.ioDisplay.outLatch = s.read s.cfg.ioMap.port &&& s.read s.cfg.ioMap.dir ∧
    s.ioOut.ioInput.ioDisplay.display =
      ⟨s.read s.cfg.ioMap.disp0, s.read s.cfg.ioMap.disp1, s.read s.cfg.ioMap.disp2,
        s.read s.cfg.ioMap.disp3⟩

/-- The input merge: output bits of PORT stay, input bits take the next supplied value, or the free draw where
none is supplied; no other cell and no register changes (20_memory.md section 5, decisions D9, D11; log 10). The
decisions are followed as log 5 says. -/
def Obligations.InputMergeFillsTheInputPins : Prop :=
  ∀ (s : State) (v : Cell), s.cfg.ioMap.wellFormed = true →
    (∀ q, s.inpQueue = v :: q → s.ioOut.ioInput.ioDisplay.inpQueue = q) ∧
    (((∃ q, s.inpQueue = v :: q) ∨ (s.inpQueue = [] ∧ v = Config.inpStub s.draws)) →
      ∀ k < 6, (s.ioOut.ioInput.ioDisplay.read s.cfg.ioMap.port).getLsbD k =
        if (s.read s.cfg.ioMap.dir).getLsbD k then (s.read s.cfg.ioMap.port).getLsbD k else v.getLsbD k) ∧
    (∀ a : Cell, a ≠ s.cfg.ioMap.port → s.ioOut.ioInput.ioDisplay.read a = s.read a) ∧
    (∀ r, s.ioOut.ioInput.ioDisplay.reg r = s.reg r)

/-! Data movement. -/

/-- LOAD: the source value goes to the target, with the flags of the value, a target that is F or a flag taking
the value over the flags; or the fault of its form (41_data_movement.md; decisions D6, D7, D17, D24, D25, D28).
What it keeps and its faults: log 3, 10, 11, 12, 14 (`RestKept`, `FaultTaken`). -/
def Obligations.LoadCopiesTheSourceWithItsFlags : Prop :=
  CopiesSource .load fun v => some (flagsOfValue v)

/-- PUSH: S is decremented and the source value, read before that, goes to the target, with no flag; or the
fault of its form (41_data_movement.md; decisions D13, D24, D25).
What it keeps and its faults: log 3, 10, 11, 12, 14 (`RestKept`, `FaultTaken`). -/
def Obligations.PushStoresTheSourceAtTheNewTop : Prop :=
  (CopiesSource .push fun _ => none) ∧
  ∀ (o : Operands) (s : State) (v : Cell), sourceValue o s = some v →
    o.target = .stackInd → o.sideEffect = .preDecStack →
    targetLoc o s = .mem (s.regS - 1) ∧
    ((s.regS - 1).toNat < 0o30 ∨ s.cfg.promWritePolicy = .ignore →
      ∃ t, exec (.push o) s = .next t ∧ t.regS = s.regS - 1 ∧ t.regF = s.regF ∧
        (keepsValue s.cfg (s.regS - 1) = true → t.read (s.regS - 1) = v))

/-- POP: the cell S names is read, S is incremented, and the value goes to the target with its flags, a target
that is F or a flag taking the value over the flags, a target S over the increment; or the fault of its form
(41_data_movement.md; decisions D6, D24, D25).
What it keeps and its faults: log 3, 10, 11, 12, 14 (`RestKept`, `FaultTaken`). -/
def Obligations.PopMovesTheTopOfStackToTheTarget : Prop :=
  (CopiesSource .pop fun v => some (flagsOfValue v)) ∧
  ∀ (o : Operands) (s : State), o.source = .stackInd → o.sideEffect = .postIncStack →
    sourceValue o s = some (s.read s.regS) ∧
    (∀ r, o.target = .reg r →
      ∃ t, exec (.pop o) s = .next t ∧ t.reg r = s.read s.regS ∧
        (r ≠ .s → t.regS = s.regS + 1) ∧ (∀ a, t.read a = s.read a))

/-- The stack discipline: any pushes followed by as many pops give the pushed values back in reverse order and
restore S, while S does not wrap, the pushed cells keep what is stored in them, and the pops write neither S nor
memory (41_data_movement.md, the stack discipline, derived there from PUSH and POP). How a step is cut into
`exec`, TICK and IO is log 14, the inputs drawn are log 10, the I/O map is log 5. -/
def Obligations.PopsReturnPushedValuesInReverse : Prop :=
  ∀ (pushes pops : List Instr) (s : State) (vs : List Cell),
    s.status = .run → s.cfg.ioMap.wellFormed = true →
    (∀ i ∈ pushes, isPush i = true) → (∀ i ∈ pops, isPop i = true) → pops.length = pushes.length →
    pushes.length ≤ s.regS.toNat →
    (∀ k < pushes.length, keepsValue s.cfg (s.regS - 1 - BitVec.ofNat 6 k) = true) →
    sourceValues pushes s = some vs →
      ∃ t u, runAll pushes s = some t ∧ runAll pops t = some u ∧
        t.regS = s.regS - BitVec.ofNat 6 pushes.length ∧ u.regS = s.regS ∧
        sourceValues pops t = some vs.reverse

/-- Three LOADs into A from [B] with base increment, none of the three cells one the core rewrites, read B, B +
1 and B + 2 in turn and leave B three higher (41_data_movement.md, LOAD; decision D28). How a step is cut into
`exec`, TICK and IO is log 14, the inputs drawn are log 10, the I/O map is log 5. -/
def Obligations.ThreeBaseIndexedLoadsWalkThreeCells : Prop :=
  ∀ (o : Operands) (s : State), o.source = .baseInd → o.target = .reg .a →
    o.sideEffect = .postIncBase → s.status = .run → s.cfg.ioMap.wellFormed = true →
    (∀ k < 3, s.regB + BitVec.ofNat 6 k ≠ s.cfg.ioMap.port ∧
      s.regB + BitVec.ofNat 6 k ≠ s.cfg.ioMap.tickSlow ∧
      s.regB + BitVec.ofNat 6 k ≠ s.cfg.ioMap.tickFast) →
      ∃ t, runAll [.load o, .load o, .load o] s = some t ∧ t.regB = s.regB + 3 ∧
        t.regA = s.read (s.regB + 2) ∧
        sourceValues [.load o, .load o, .load o] s =
          some [s.read s.regB, s.read (s.regB + 1), s.read (s.regB + 2)]

/-! The ALU. -/

/-- The outputs of the ALU block for every input: each class's pre-mask result r, which lies in -63 to 126;
the stored result mask6(r); M and Z of the flag rule on r; and C of it too, but for the rotates the bit rotated
out (42_alu.md section 1; decisions D19, D20, D21; log 19, 24). -/
def Obligations.AluBlockOutputsThePreMaskResult : Prop :=
  ∀ (a b : Cell) (cin : Bool),
    (∀ r ∈ [aluAdd a b, aluSub a b, aluAnd a b, aluOr a b, aluXor a b, aluNot a, aluInc a, aluDec a,
        aluRol a cin, aluRor a cin],
      -63 ≤ r.preMask ∧ r.preMask ≤ 126 ∧ r.value = mask6 r.preMask ∧
        r.flags.m = (flagRule r.preMask).m ∧ r.flags.z = (flagRule r.preMask).z) ∧
    (∀ r ∈ [aluAdd a b, aluSub a b, aluAnd a b, aluOr a b, aluXor a b, aluNot a, aluInc a, aluDec a],
      r.flags.c = (flagRule r.preMask).c) ∧
    (aluRol a cin).flags.c = a.getLsbD 5 ∧ (aluRor a cin).flags.c = a.getLsbD 0 ∧
    (aluAdd a b).preMask = a.toNat + b.toNat ∧ (aluSub a b).preMask = (a.toNat : Int) - b.toNat ∧
    (aluAnd a b).preMask = (a.toNat &&& b.toNat : Nat) ∧ (aluOr a b).preMask = (a.toNat ||| b.toNat : Nat) ∧
    (aluXor a b).preMask = (a.toNat ^^^ b.toNat : Nat) ∧ (aluNot a).preMask = 63 - (a.toNat : Int) ∧
    (aluInc a).preMask = a.toNat + 1 ∧ (aluDec a).preMask = (a.toNat : Int) - 1 ∧
    (aluRol a cin).preMask = ((a.toNat * 2 + cin.toNat) % 64 : Nat) ∧
    (aluRor a cin).preMask = (a.toNat / 2 + 32 * cin.toNat : Nat)

/-- A run of the host answers `limit` exactly when as many steps completed as inputs were given. That it does so
though the machine then stands at STOP, and that completed steps alone are counted, are the model's choices
(60_exceptions.md section 4; log 29, 30). So are what it answers in status FAULT and at a refused step (log 31,
32). -/
def Obligations.HostRunAtItsCeilingAnswersLimit : Prop :=
  ∀ (inps : List Cell) (s : State),
    (hostRun inps s).1 = .limit ↔ (hostRun inps s).2.1 = inps.length

/-- ADD and SUB: target plus source, and target minus source, modulo 64, with the flags of the pre-mask result;
or the fault of the form (42_alu.md section 2; decisions D3, D17, D21). What it keeps and its faults: log 3, 10,
11, 12, 14 (`RestKept`, `FaultTaken`). -/
def Obligations.AddAndSubCombineTargetAndSource : Prop :=
  (CombinesSource .add fun tv v =>
    (tv + v, ⟨decide (64 ≤ tv.toNat + v.toNat), (tv + v).getLsbD 5, decide (tv = 0 ∧ v = 0)⟩)) ∧
  (CombinesSource .sub fun tv v =>
    (tv - v, ⟨decide (tv.toNat < v.toNat), decide (tv.toNat < v.toNat) || (tv - v).getLsbD 5,
      decide (tv = v)⟩))

/-- AND, OR and XOR of target and source, C clear, M bit 5, Z when 0; or the fault of the form (42_alu.md
section 3; decisions D3, D17).
What it keeps and its faults: log 3, 10, 11, 12, 14 (`RestKept`, `FaultTaken`). -/
def Obligations.LogicalClassesCombineTargetAndSource : Prop :=
  (CombinesSource .and fun tv v => (tv &&& v, flagsOfValue (tv &&& v))) ∧
  (CombinesSource .or fun tv v => (tv ||| v, flagsOfValue (tv ||| v))) ∧
  (CombinesSource .xor fun tv v => (tv ^^^ v, flagsOfValue (tv ^^^ v)))

/-- NOT, INC and DEC of the target, whatever the source mode; or the fault of the form (42_alu.md sections 3 and
4; decisions D3, D17, D18, D20).
What it keeps and its faults: log 3, 10, 11, 12, 14 (`RestKept`, `FaultTaken`). -/
def Obligations.NotIncDecActOnTheTarget : Prop :=
  (ActsOnTarget .not fun tv _ => (~~~tv, flagsOfValue (~~~tv))) ∧
  (ActsOnTarget .inc fun tv _ => (tv + 1, ⟨tv == 63, (tv + 1).getLsbD 5, false⟩)) ∧
  (ActsOnTarget .dec fun tv _ => (tv - 1, ⟨tv == 0, (tv - 1).getLsbD 5, tv == 1⟩))

/-- ROL and ROR of the target through C, C from the bit rotated out, M and Z from the stored value, whatever the
source mode; or the fault of the form (42_alu.md section 5; decisions D18, D19). What it keeps and its faults:
log 3, 10, 11, 12, 14 (`RestKept`, `FaultTaken`). -/
def Obligations.RotatesGoThroughTheCarry : Prop :=
  (ActsOnTarget .rol fun tv c =>
    (BitVec.ofNat 6 (tv.toNat * 2 + c.toNat),
      ⟨tv.getLsbD 5, tv.getLsbD 4, decide ((tv.toNat * 2 + c.toNat) % 64 = 0)⟩)) ∧
  (ActsOnTarget .ror fun tv c =>
    (BitVec.ofNat 6 (tv.toNat / 2 + 32 * c.toNat),
      ⟨tv.getLsbD 0, c, decide (tv.toNat / 2 + 32 * c.toNat = 0)⟩))

/-! Control. -/

/-- JMP: the source value goes to the target, I in the expected shape, with no flag; or the fault of the form
(43_control.md section 1; decision D22). What it keeps and its faults: log 3, 10, 11, 12, 14 (`RestKept`,
`FaultTaken`). -/
def Obligations.JmpWritesTheTarget : Prop :=
  (CopiesSource .jmp fun _ => none) ∧
  ∀ (o : Operands) (s : State) (v : Cell), sourceValue o s = some v → o.target = .reg .i →
    ∃ t, exec (.jmp o) s = .next t ∧ t.regI = v

/-- JZ and JNZ (43_control.md section 1; decision D22). What it keeps and its faults: log 3, 10, 11, 12, 14
(`RestKept`, `FaultTaken`). -/
def Obligations.JzAndJnzJumpOnZero : Prop :=
  JumpsWhen .jz (fun s => s.regF &&& s.cfg.flagMask.z != 0) ∧
  JumpsWhen .jnz (fun s => s.regF &&& s.cfg.flagMask.z == 0)

/-- JC and JNC (43_control.md section 1; decision D22). What it keeps and its faults: log 3, 10, 11, 12, 14
(`RestKept`, `FaultTaken`). -/
def Obligations.JcAndJncJumpOnCarry : Prop :=
  JumpsWhen .jc (fun s => s.regF &&& s.cfg.flagMask.c != 0) ∧
  JumpsWhen .jnc (fun s => s.regF &&& s.cfg.flagMask.c == 0)

/-- JM and JNM (43_control.md section 1; decision D22). What it keeps and its faults: log 3, 10, 11, 12, 14
(`RestKept`, `FaultTaken`). -/
def Obligations.JmAndJnmJumpOnMinus : Prop :=
  JumpsWhen .jm (fun s => s.regF &&& s.cfg.flagMask.m != 0) ∧
  JumpsWhen .jnm (fun s => s.regF &&& s.cfg.flagMask.m == 0)

/-- CALL: the post-fetch I goes to the target, then I takes the source value, with no flag; or the fault of its
form (43_control.md section 2; decisions D23, D24, D25).
What it keeps and its faults: log 3, 10, 11, 12, 14 (`RestKept`, `FaultTaken`). -/
def Obligations.CallPushesTheReturnAddressAndJumps : Prop :=
  ∀ (o : Operands) (s : State),
    (o.source = .none → Faults (.call o) s .undefinedSource) ∧
    ∀ v, sourceValue o s = some v →
      WriteFaults (.call o) s ∧
      ((targetLoc o s).writable s.cfg = true →
        ∃ t, exec (.call o) s = .next t ∧ t.regI = v ∧
          (∀ r, r ≠ .i → t.reg r = baseBumped o.sideEffect r
            (regWritten (adjusted o s) none (targetLoc o s) (postFetchI o s) r)) ∧
          (∀ a, t.read a = cellWritten (adjusted o s) (targetLoc o s) (postFetchI o s) a) ∧
          RestKept s t)

/-- RETURN: the source value, the cell S names before the increment in the expected shape, goes to the target,
with no flag; or the fault of the form (43_control.md section 2; decision D23). What it keeps and its faults:
log 3, 10, 11, 12, 14 (`RestKept`, `FaultTaken`). -/
def Obligations.ReturnPopsTheReturnAddress : Prop :=
  (CopiesSource .ret fun _ => none) ∧
  ∀ (o : Operands) (s : State), o.source = .stackInd → o.target = .reg .i →
    o.sideEffect = .postIncStack →
      ∃ t, exec (.ret o) s = .next t ∧ t.regI = s.read s.regS ∧ t.regS = s.regS + 1 ∧
        t.regF = s.regF ∧ (∀ a, t.read a = s.read a)

/-- A CALL and then a RETURN, in the expected shapes, each with its TICK and IO, resume at the cell after the
CALL with S and F as before, where the pushed cell keeps what is stored in it (43_control.md section 2; decision
D23). How a step is cut into `exec`, TICK and IO is log 14, the inputs drawn are log 10, the I/O map is log 5. -/
def Obligations.ReturnAfterCallResumes : Prop :=
  ∀ (c r : Operands) (s : State) (v : Cell), s.status = .run → s.cfg.ioMap.wellFormed = true →
    c.target = .stackInd → c.sideEffect = .preDecStack → sourceValue c s = some v →
    r.source = .stackInd → r.target = .reg .i → r.sideEffect = .postIncStack →
    keepsValue s.cfg (s.regS - 1) = true →
      ∃ t u, runAll [.call c] s = some t ∧ t.regI = v ∧ runAll [.call c, .ret r] s = some u ∧
        u.regI = postFetchI c s ∧ u.regS = s.regS ∧ u.regF = s.regF ∧ u.regA = s.regA ∧ u.regB = s.regB

/-- NOP: I passes the instruction's cells and the record's side effect applies; nothing else changes and it
never faults (43_control.md section 3; decision D3). What it keeps: log 3, 10, 11, 14 (`RestKept`). -/
def Obligations.NopOnlyAdvances : Prop :=
  ∀ (o : Operands) (s : State), ∃ t, exec (.nop o) s = .next t ∧ WroteNothing o s t

/-- STOP changes nothing, I included (43_control.md section 3). CHECK_STOP ends a step before `exec` is asked;
that `exec` gives STOP this meaning too is log 14. -/
def Obligations.StopChangesNothing : Prop :=
  ∀ (o : Operands) (s : State), exec (.stop o) s = .next s
end

