-- ==== Sys2Proof/Laws/Alu.lean ====
section
/-! SUPPORT. The outputs of the ALU block: one lemma per output. -/

namespace Sys2Proof.Machine

@[simp] theorem ofPreMask_preMask (r : Int) : (AluResult.ofPreMask r).preMask = r := rfl

@[simp] theorem ofPreMask_value (r : Int) : (AluResult.ofPreMask r).value = mask6 r := rfl

@[simp] theorem ofPreMask_flags (r : Int) : (AluResult.ofPreMask r).flags = flagRule r := rfl

@[simp] theorem ofRotated_preMask (v : Cell) (c : Bool) : (AluResult.ofRotated v c).preMask = v.toNat := rfl

@[simp] theorem ofRotated_value (v : Cell) (c : Bool) : (AluResult.ofRotated v c).value = v := rfl

@[simp] theorem ofRotated_flags (v : Cell) (c : Bool) :
    (AluResult.ofRotated v c).flags = flagRuleWithCarry v.toNat c := rfl

/-- A stored value is the mask of itself. -/
@[simp] theorem mask6_toNat (v : Cell) : mask6 (v.toNat : Int) = v := by
  simp [mask6]

end Sys2Proof.Machine
end

