-- ==== Sys2Proof/Laws/State.lean ====
section
/-! SUPPORT. What every update of the state does to every field: one lemma per field per update. -/

namespace Sys2Proof.Machine

variable (s : State)

/-! `poke`. -/

@[simp] theorem poke_regA (a v : Cell) : (s.poke a v).regA = s.regA := rfl
@[simp] theorem poke_regB (a v : Cell) : (s.poke a v).regB = s.regB := rfl
@[simp] theorem poke_regI (a v : Cell) : (s.poke a v).regI = s.regI := rfl
@[simp] theorem poke_regS (a v : Cell) : (s.poke a v).regS = s.regS := rfl
@[simp] theorem poke_regF (a v : Cell) : (s.poke a v).regF = s.regF := rfl
@[simp] theorem poke_mem (a v : Cell) : (s.poke a v).mem = s.mem.write a v := rfl
@[simp] theorem poke_tick (a v : Cell) : (s.poke a v).tick = s.tick := rfl
@[simp] theorem poke_status (a v : Cell) : (s.poke a v).status = s.status := rfl
@[simp] theorem poke_outLatch (a v : Cell) : (s.poke a v).outLatch = s.outLatch := rfl
@[simp] theorem poke_display (a v : Cell) : (s.poke a v).display = s.display := rfl
@[simp] theorem poke_inpQueue (a v : Cell) : (s.poke a v).inpQueue = s.inpQueue := rfl
@[simp] theorem poke_draws (a v : Cell) : (s.poke a v).draws = s.draws := rfl
@[simp] theorem poke_cfg (a v : Cell) : (s.poke a v).cfg = s.cfg := rfl

/-! `setFlag`. -/

@[simp] theorem setFlag_regA (x : Flag) (v : Cell) : (s.setFlag x v).regA = s.regA := rfl
@[simp] theorem setFlag_regB (x : Flag) (v : Cell) : (s.setFlag x v).regB = s.regB := rfl
@[simp] theorem setFlag_regI (x : Flag) (v : Cell) : (s.setFlag x v).regI = s.regI := rfl
@[simp] theorem setFlag_regS (x : Flag) (v : Cell) : (s.setFlag x v).regS = s.regS := rfl
@[simp] theorem setFlag_regF (x : Flag) (v : Cell) : (s.setFlag x v).regF = flagStore s.cfg.flagMask s.regF x v := rfl
@[simp] theorem setFlag_mem (x : Flag) (v : Cell) : (s.setFlag x v).mem = s.mem := rfl
@[simp] theorem setFlag_tick (x : Flag) (v : Cell) : (s.setFlag x v).tick = s.tick := rfl
@[simp] theorem setFlag_status (x : Flag) (v : Cell) : (s.setFlag x v).status = s.status := rfl
@[simp] theorem setFlag_outLatch (x : Flag) (v : Cell) : (s.setFlag x v).outLatch = s.outLatch := rfl
@[simp] theorem setFlag_display (x : Flag) (v : Cell) : (s.setFlag x v).display = s.display := rfl
@[simp] theorem setFlag_inpQueue (x : Flag) (v : Cell) : (s.setFlag x v).inpQueue = s.inpQueue := rfl
@[simp] theorem setFlag_draws (x : Flag) (v : Cell) : (s.setFlag x v).draws = s.draws := rfl
@[simp] theorem setFlag_cfg (x : Flag) (v : Cell) : (s.setFlag x v).cfg = s.cfg := rfl

/-! `advance`. -/

@[simp] theorem advance_regA (o : Operands) : (s.advance o).regA = s.regA := rfl
@[simp] theorem advance_regB (o : Operands) : (s.advance o).regB = s.regB := rfl
@[simp] theorem advance_regI (o : Operands) : (s.advance o).regI = s.regI + BitVec.ofNat 6 o.length := rfl
@[simp] theorem advance_regS (o : Operands) : (s.advance o).regS = s.regS := rfl
@[simp] theorem advance_regF (o : Operands) : (s.advance o).regF = s.regF := rfl
@[simp] theorem advance_mem (o : Operands) : (s.advance o).mem = s.mem := rfl
@[simp] theorem advance_tick (o : Operands) : (s.advance o).tick = s.tick := rfl
@[simp] theorem advance_status (o : Operands) : (s.advance o).status = s.status := rfl
@[simp] theorem advance_outLatch (o : Operands) : (s.advance o).outLatch = s.outLatch := rfl
@[simp] theorem advance_display (o : Operands) : (s.advance o).display = s.display := rfl
@[simp] theorem advance_inpQueue (o : Operands) : (s.advance o).inpQueue = s.inpQueue := rfl
@[simp] theorem advance_draws (o : Operands) : (s.advance o).draws = s.draws := rfl
@[simp] theorem advance_cfg (o : Operands) : (s.advance o).cfg = s.cfg := rfl

/-! `putFlags`. -/

@[simp] theorem putFlags_regA (b : Option FlagBits) : (s.putFlags b).regA = s.regA := by cases b <;> rfl
@[simp] theorem putFlags_regB (b : Option FlagBits) : (s.putFlags b).regB = s.regB := by cases b <;> rfl
@[simp] theorem putFlags_regI (b : Option FlagBits) : (s.putFlags b).regI = s.regI := by cases b <;> rfl
@[simp] theorem putFlags_regS (b : Option FlagBits) : (s.putFlags b).regS = s.regS := by cases b <;> rfl
@[simp] theorem putFlags_mem (b : Option FlagBits) : (s.putFlags b).mem = s.mem := by cases b <;> rfl
@[simp] theorem putFlags_tick (b : Option FlagBits) : (s.putFlags b).tick = s.tick := by cases b <;> rfl
@[simp] theorem putFlags_status (b : Option FlagBits) : (s.putFlags b).status = s.status := by cases b <;> rfl
@[simp] theorem putFlags_outLatch (b : Option FlagBits) : (s.putFlags b).outLatch = s.outLatch := by cases b <;> rfl
@[simp] theorem putFlags_display (b : Option FlagBits) : (s.putFlags b).display = s.display := by cases b <;> rfl
@[simp] theorem putFlags_inpQueue (b : Option FlagBits) : (s.putFlags b).inpQueue = s.inpQueue := by cases b <;> rfl
@[simp] theorem putFlags_draws (b : Option FlagBits) : (s.putFlags b).draws = s.draws := by cases b <;> rfl
@[simp] theorem putFlags_cfg (b : Option FlagBits) : (s.putFlags b).cfg = s.cfg := by cases b <;> rfl

/-! `stackAdjust`. -/

@[simp] theorem stackAdjust_regA (e : SideEffect) : (s.stackAdjust e).regA = s.regA := by cases e <;> rfl
@[simp] theorem stackAdjust_regB (e : SideEffect) : (s.stackAdjust e).regB = s.regB := by cases e <;> rfl
@[simp] theorem stackAdjust_regI (e : SideEffect) : (s.stackAdjust e).regI = s.regI := by cases e <;> rfl
@[simp] theorem stackAdjust_regF (e : SideEffect) : (s.stackAdjust e).regF = s.regF := by cases e <;> rfl
@[simp] theorem stackAdjust_mem (e : SideEffect) : (s.stackAdjust e).mem = s.mem := by cases e <;> rfl
@[simp] theorem stackAdjust_tick (e : SideEffect) : (s.stackAdjust e).tick = s.tick := by cases e <;> rfl
@[simp] theorem stackAdjust_status (e : SideEffect) : (s.stackAdjust e).status = s.status := by cases e <;> rfl
@[simp] theorem stackAdjust_outLatch (e : SideEffect) : (s.stackAdjust e).outLatch = s.outLatch := by cases e <;> rfl
@[simp] theorem stackAdjust_display (e : SideEffect) : (s.stackAdjust e).display = s.display := by cases e <;> rfl
@[simp] theorem stackAdjust_inpQueue (e : SideEffect) : (s.stackAdjust e).inpQueue = s.inpQueue := by cases e <;> rfl
@[simp] theorem stackAdjust_draws (e : SideEffect) : (s.stackAdjust e).draws = s.draws := by cases e <;> rfl
@[simp] theorem stackAdjust_cfg (e : SideEffect) : (s.stackAdjust e).cfg = s.cfg := by cases e <;> rfl

/-! `baseIncrement`. -/

@[simp] theorem baseIncrement_regA (e : SideEffect) : (s.baseIncrement e).regA = s.regA := by cases e <;> rfl
@[simp] theorem baseIncrement_regI (e : SideEffect) : (s.baseIncrement e).regI = s.regI := by cases e <;> rfl
@[simp] theorem baseIncrement_regS (e : SideEffect) : (s.baseIncrement e).regS = s.regS := by cases e <;> rfl
@[simp] theorem baseIncrement_regF (e : SideEffect) : (s.baseIncrement e).regF = s.regF := by cases e <;> rfl
@[simp] theorem baseIncrement_mem (e : SideEffect) : (s.baseIncrement e).mem = s.mem := by cases e <;> rfl
@[simp] theorem baseIncrement_tick (e : SideEffect) : (s.baseIncrement e).tick = s.tick := by cases e <;> rfl
@[simp] theorem baseIncrement_status (e : SideEffect) : (s.baseIncrement e).status = s.status := by cases e <;> rfl
@[simp] theorem baseIncrement_outLatch (e : SideEffect) : (s.baseIncrement e).outLatch = s.outLatch := by cases e <;> rfl
@[simp] theorem baseIncrement_display (e : SideEffect) : (s.baseIncrement e).display = s.display := by cases e <;> rfl
@[simp] theorem baseIncrement_inpQueue (e : SideEffect) : (s.baseIncrement e).inpQueue = s.inpQueue := by cases e <;> rfl
@[simp] theorem baseIncrement_draws (e : SideEffect) : (s.baseIncrement e).draws = s.draws := by cases e <;> rfl
@[simp] theorem baseIncrement_cfg (e : SideEffect) : (s.baseIncrement e).cfg = s.cfg := by cases e <;> rfl

/-! `jumpTo`. -/

@[simp] theorem jumpTo_regA (j : Option Cell) : (s.jumpTo j).regA = s.regA := by cases j <;> rfl
@[simp] theorem jumpTo_regB (j : Option Cell) : (s.jumpTo j).regB = s.regB := by cases j <;> rfl
@[simp] theorem jumpTo_regI (j : Option Cell) : (s.jumpTo j).regI = j.getD s.regI := by cases j <;> rfl
@[simp] theorem jumpTo_regS (j : Option Cell) : (s.jumpTo j).regS = s.regS := by cases j <;> rfl
@[simp] theorem jumpTo_regF (j : Option Cell) : (s.jumpTo j).regF = s.regF := by cases j <;> rfl
@[simp] theorem jumpTo_mem (j : Option Cell) : (s.jumpTo j).mem = s.mem := by cases j <;> rfl
@[simp] theorem jumpTo_tick (j : Option Cell) : (s.jumpTo j).tick = s.tick := by cases j <;> rfl
@[simp] theorem jumpTo_status (j : Option Cell) : (s.jumpTo j).status = s.status := by cases j <;> rfl
@[simp] theorem jumpTo_outLatch (j : Option Cell) : (s.jumpTo j).outLatch = s.outLatch := by cases j <;> rfl
@[simp] theorem jumpTo_display (j : Option Cell) : (s.jumpTo j).display = s.display := by cases j <;> rfl
@[simp] theorem jumpTo_inpQueue (j : Option Cell) : (s.jumpTo j).inpQueue = s.inpQueue := by cases j <;> rfl
@[simp] theorem jumpTo_draws (j : Option Cell) : (s.jumpTo j).draws = s.draws := by cases j <;> rfl
@[simp] theorem jumpTo_cfg (j : Option Cell) : (s.jumpTo j).cfg = s.cfg := by cases j <;> rfl

/-! `setReg`. -/

@[simp] theorem setReg_mem (r : Reg) (v : Cell) : (s.setReg r v).mem = s.mem := by cases r <;> rfl
@[simp] theorem setReg_tick (r : Reg) (v : Cell) : (s.setReg r v).tick = s.tick := by cases r <;> rfl
@[simp] theorem setReg_status (r : Reg) (v : Cell) : (s.setReg r v).status = s.status := by cases r <;> rfl
@[simp] theorem setReg_outLatch (r : Reg) (v : Cell) : (s.setReg r v).outLatch = s.outLatch := by cases r <;> rfl
@[simp] theorem setReg_display (r : Reg) (v : Cell) : (s.setReg r v).display = s.display := by cases r <;> rfl
@[simp] theorem setReg_inpQueue (r : Reg) (v : Cell) : (s.setReg r v).inpQueue = s.inpQueue := by cases r <;> rfl
@[simp] theorem setReg_draws (r : Reg) (v : Cell) : (s.setReg r v).draws = s.draws := by cases r <;> rfl
@[simp] theorem setReg_cfg (r : Reg) (v : Cell) : (s.setReg r v).cfg = s.cfg := by cases r <;> rfl

/-! `takeFault`. -/

@[simp] theorem takeFault_regA (c : FaultCause) (op a : Cell) : (s.takeFault c op a).regA = Config.faultedReg s.draws .a := rfl
@[simp] theorem takeFault_regB (c : FaultCause) (op a : Cell) : (s.takeFault c op a).regB = Config.faultedReg s.draws .b := rfl
@[simp] theorem takeFault_regI (c : FaultCause) (op a : Cell) : (s.takeFault c op a).regI = Config.faultedReg s.draws .i := rfl
@[simp] theorem takeFault_regS (c : FaultCause) (op a : Cell) : (s.takeFault c op a).regS = Config.faultedReg s.draws .s := rfl
@[simp] theorem takeFault_regF (c : FaultCause) (op a : Cell) : (s.takeFault c op a).regF = Config.faultedReg s.draws .f := rfl
@[simp] theorem takeFault_mem (c : FaultCause) (op a : Cell) : (s.takeFault c op a).mem = Memory.filled (Config.faultedCell s.draws) := by simp only [State.takeFault]
@[simp] theorem takeFault_tick (c : FaultCause) (op a : Cell) : (s.takeFault c op a).tick = s.tick := rfl
@[simp] theorem takeFault_status (c : FaultCause) (op a : Cell) : (s.takeFault c op a).status = .fault ⟨c, op, a⟩ := rfl
@[simp] theorem takeFault_outLatch (c : FaultCause) (op a : Cell) : (s.takeFault c op a).outLatch = s.outLatch := rfl
@[simp] theorem takeFault_display (c : FaultCause) (op a : Cell) : (s.takeFault c op a).display = s.display := rfl
@[simp] theorem takeFault_inpQueue (c : FaultCause) (op a : Cell) : (s.takeFault c op a).inpQueue = s.inpQueue := rfl
@[simp] theorem takeFault_draws (c : FaultCause) (op a : Cell) : (s.takeFault c op a).draws = s.draws + 1 := rfl
@[simp] theorem takeFault_cfg (c : FaultCause) (op a : Cell) : (s.takeFault c op a).cfg = s.cfg := rfl

/-! `inpTaken`. -/

@[simp] theorem inpTaken_regA : (s.inpTaken).regA = s.regA := by unfold State.inpTaken; split <;> rfl
@[simp] theorem inpTaken_regB : (s.inpTaken).regB = s.regB := by unfold State.inpTaken; split <;> rfl
@[simp] theorem inpTaken_regI : (s.inpTaken).regI = s.regI := by unfold State.inpTaken; split <;> rfl
@[simp] theorem inpTaken_regS : (s.inpTaken).regS = s.regS := by unfold State.inpTaken; split <;> rfl
@[simp] theorem inpTaken_regF : (s.inpTaken).regF = s.regF := by unfold State.inpTaken; split <;> rfl
@[simp] theorem inpTaken_mem : (s.inpTaken).mem = s.mem := by unfold State.inpTaken; split <;> rfl
@[simp] theorem inpTaken_tick : (s.inpTaken).tick = s.tick := by unfold State.inpTaken; split <;> rfl
@[simp] theorem inpTaken_status : (s.inpTaken).status = s.status := by unfold State.inpTaken; split <;> rfl
@[simp] theorem inpTaken_outLatch : (s.inpTaken).outLatch = s.outLatch := by unfold State.inpTaken; split <;> rfl
@[simp] theorem inpTaken_display : (s.inpTaken).display = s.display := by unfold State.inpTaken; split <;> rfl
@[simp] theorem inpTaken_inpQueue : (s.inpTaken).inpQueue = s.inpQueue.tail := by
  unfold State.inpTaken
  cases h : s.inpQueue <;> simp
@[simp] theorem inpTaken_cfg : (s.inpTaken).cfg = s.cfg := by unfold State.inpTaken; split <;> rfl

/-! `tickPhase`. -/

@[simp] theorem tickPhase_regA : (s.tickPhase).regA = s.regA := rfl
@[simp] theorem tickPhase_regB : (s.tickPhase).regB = s.regB := rfl
@[simp] theorem tickPhase_regI : (s.tickPhase).regI = s.regI := rfl
@[simp] theorem tickPhase_regS : (s.tickPhase).regS = s.regS := rfl
@[simp] theorem tickPhase_regF : (s.tickPhase).regF = s.regF := rfl
@[simp] theorem tickPhase_mem : (s.tickPhase).mem = (s.mem.write s.cfg.ioMap.tickFast (fastOf (s.tick + 1))).write s.cfg.ioMap.tickSlow (slowOf (s.tick + 1)) := rfl
@[simp] theorem tickPhase_tick : (s.tickPhase).tick = s.tick + 1 := rfl
@[simp] theorem tickPhase_status : (s.tickPhase).status = s.status := rfl
@[simp] theorem tickPhase_outLatch : (s.tickPhase).outLatch = s.outLatch := rfl
@[simp] theorem tickPhase_display : (s.tickPhase).display = s.display := rfl
@[simp] theorem tickPhase_inpQueue : (s.tickPhase).inpQueue = s.inpQueue := rfl
@[simp] theorem tickPhase_draws : (s.tickPhase).draws = s.draws := rfl
@[simp] theorem tickPhase_cfg : (s.tickPhase).cfg = s.cfg := rfl

/-! `ioOut`. -/

@[simp] theorem ioOut_regA : (s.ioOut).regA = s.regA := rfl
@[simp] theorem ioOut_regB : (s.ioOut).regB = s.regB := rfl
@[simp] theorem ioOut_regI : (s.ioOut).regI = s.regI := rfl
@[simp] theorem ioOut_regS : (s.ioOut).regS = s.regS := rfl
@[simp] theorem ioOut_regF : (s.ioOut).regF = s.regF := rfl
@[simp] theorem ioOut_mem : (s.ioOut).mem = s.mem := rfl
@[simp] theorem ioOut_tick : (s.ioOut).tick = s.tick := rfl
@[simp] theorem ioOut_status : (s.ioOut).status = s.status := rfl
@[simp] theorem ioOut_outLatch : (s.ioOut).outLatch = s.read s.cfg.ioMap.port &&& s.read s.cfg.ioMap.dir := rfl
@[simp] theorem ioOut_display : (s.ioOut).display = s.display := rfl
@[simp] theorem ioOut_inpQueue : (s.ioOut).inpQueue = s.inpQueue := rfl
@[simp] theorem ioOut_draws : (s.ioOut).draws = s.draws := rfl
@[simp] theorem ioOut_cfg : (s.ioOut).cfg = s.cfg := rfl

/-! `ioInput`. -/

@[simp] theorem ioInput_regA : (s.ioInput).regA = s.regA := by simp [State.ioInput]
@[simp] theorem ioInput_regB : (s.ioInput).regB = s.regB := by simp [State.ioInput]
@[simp] theorem ioInput_regI : (s.ioInput).regI = s.regI := by simp [State.ioInput]
@[simp] theorem ioInput_regS : (s.ioInput).regS = s.regS := by simp [State.ioInput]
@[simp] theorem ioInput_regF : (s.ioInput).regF = s.regF := by simp [State.ioInput]
@[simp] theorem ioInput_mem : (s.ioInput).mem = s.mem.write s.cfg.ioMap.port (portMerged (s.read s.cfg.ioMap.port) (s.read s.cfg.ioMap.dir) s.inpValue) := by simp [State.ioInput]
@[simp] theorem ioInput_tick : (s.ioInput).tick = s.tick := by simp [State.ioInput]
@[simp] theorem ioInput_status : (s.ioInput).status = s.status := by simp [State.ioInput]
@[simp] theorem ioInput_outLatch : (s.ioInput).outLatch = s.outLatch := by simp [State.ioInput]
@[simp] theorem ioInput_display : (s.ioInput).display = s.display := by simp [State.ioInput]
@[simp] theorem ioInput_inpQueue : (s.ioInput).inpQueue = s.inpQueue.tail := by simp [State.ioInput]
@[simp] theorem ioInput_draws : (s.ioInput).draws = s.inpTaken.draws := by simp [State.ioInput]
@[simp] theorem ioInput_cfg : (s.ioInput).cfg = s.cfg := by simp [State.ioInput]

/-! `ioDisplay`. -/

@[simp] theorem ioDisplay_regA : (s.ioDisplay).regA = s.regA := rfl
@[simp] theorem ioDisplay_regB : (s.ioDisplay).regB = s.regB := rfl
@[simp] theorem ioDisplay_regI : (s.ioDisplay).regI = s.regI := rfl
@[simp] theorem ioDisplay_regS : (s.ioDisplay).regS = s.regS := rfl
@[simp] theorem ioDisplay_regF : (s.ioDisplay).regF = s.regF := rfl
@[simp] theorem ioDisplay_mem : (s.ioDisplay).mem = s.mem := rfl
@[simp] theorem ioDisplay_tick : (s.ioDisplay).tick = s.tick := rfl
@[simp] theorem ioDisplay_status : (s.ioDisplay).status = s.status := rfl
@[simp] theorem ioDisplay_outLatch : (s.ioDisplay).outLatch = s.outLatch := rfl
@[simp] theorem ioDisplay_display : (s.ioDisplay).display = s.displayCells := rfl
@[simp] theorem ioDisplay_inpQueue : (s.ioDisplay).inpQueue = s.inpQueue := rfl
@[simp] theorem ioDisplay_draws : (s.ioDisplay).draws = s.draws := rfl
@[simp] theorem ioDisplay_cfg : (s.ioDisplay).cfg = s.cfg := rfl

/-! `complete`. -/

@[simp] theorem complete_regA : (s.complete).regA = s.regA := by simp [State.complete]
@[simp] theorem complete_regB : (s.complete).regB = s.regB := by simp [State.complete]
@[simp] theorem complete_regI : (s.complete).regI = s.regI := by simp [State.complete]
@[simp] theorem complete_regS : (s.complete).regS = s.regS := by simp [State.complete]
@[simp] theorem complete_regF : (s.complete).regF = s.regF := by simp [State.complete]
@[simp] theorem complete_tick : (s.complete).tick = s.tick + 1 := by simp [State.complete]
@[simp] theorem complete_status : (s.complete).status = s.status := by simp [State.complete]
@[simp] theorem complete_inpQueue : (s.complete).inpQueue = s.inpQueue.tail := by simp [State.complete]
@[simp] theorem complete_draws : (s.complete).draws = s.inpTaken.draws := by
  simp only [State.complete, ioDisplay_draws, ioInput_draws]
  unfold State.inpTaken
  cases h : s.inpQueue <;> simp [h]
@[simp] theorem complete_cfg : (s.complete).cfg = s.cfg := by simp [State.complete]

/-! `applyReset`. -/

@[simp] theorem applyReset_regA : (s.applyReset).regA = s.cfg.resetValues.a := rfl
@[simp] theorem applyReset_regB : (s.applyReset).regB = s.cfg.resetValues.b := rfl
@[simp] theorem applyReset_regI : (s.applyReset).regI = s.cfg.resetValues.i := rfl
@[simp] theorem applyReset_regS : (s.applyReset).regS = s.cfg.resetValues.s := rfl
@[simp] theorem applyReset_regF : (s.applyReset).regF = s.cfg.resetValues.f := rfl
@[simp] theorem applyReset_mem : (s.applyReset).mem = s.mem.fill programBase (resetCell s.cfg.resetValues) := rfl
@[simp] theorem applyReset_tick : (s.applyReset).tick = s.cfg.resetValues.tick := rfl
@[simp] theorem applyReset_status : (s.applyReset).status = .run := rfl
@[simp] theorem applyReset_outLatch : (s.applyReset).outLatch = s.cfg.resetValues.outLatch := rfl
@[simp] theorem applyReset_display : (s.applyReset).display = s.cfg.resetValues.display := rfl
@[simp] theorem applyReset_inpQueue : (s.applyReset).inpQueue = s.inpQueue := rfl
@[simp] theorem applyReset_draws : (s.applyReset).draws = s.draws := rfl
@[simp] theorem applyReset_cfg : (s.applyReset).cfg = s.cfg := rfl

/-! Registers under updates of a register. -/

@[simp] theorem putFlags_none : s.putFlags none = s := rfl
@[simp] theorem putFlags_some_regF (b : FlagBits) :
    (s.putFlags (some b)).regF = flagWrite s.cfg.flagMask s.regF b := rfl
@[simp] theorem jumpTo_none : s.jumpTo none = s := rfl
@[simp] theorem poke_reg (a v : Cell) (r : Reg) : (s.poke a v).reg r = s.reg r := by cases r <;> rfl
@[simp] theorem setReg_reg (q r : Reg) (v : Cell) :
    (s.setReg q v).reg r = if q = r then v else s.reg r := by cases q <;> cases r <;> rfl
@[simp] theorem setFlag_reg (x : Flag) (v : Cell) (r : Reg) :
    (s.setFlag x v).reg r = if r = .f then flagStore s.cfg.flagMask s.regF x v else s.reg r := by
  cases r <;> rfl
@[simp] theorem jumpTo_reg (j : Option Cell) (r : Reg) :
    (s.jumpTo j).reg r = if r = .i then j.getD s.regI else s.reg r := by cases j <;> cases r <;> rfl
@[simp] theorem baseIncrement_reg (e : SideEffect) (r : Reg) :
    (s.baseIncrement e).reg r = if r = .b ∧ e = .postIncBase then s.reg r + 1 else s.reg r := by
  cases e <;> cases r <;> rfl
@[simp] theorem complete_reg (r : Reg) : s.complete.reg r = s.reg r := by cases r <;> simp [State.reg]

/-! Reading memory looks at `mem` alone. -/

theorem read_congr (t : State) (h : t.mem = s.mem) (a : Cell) : t.read a = s.read a := by
  simp [State.read, h]
@[simp] theorem setFlag_read (x : Flag) (v a : Cell) : (s.setFlag x v).read a = s.read a := rfl
@[simp] theorem advance_read (o : Operands) (a : Cell) : (s.advance o).read a = s.read a := rfl
@[simp] theorem putFlags_read (b : Option FlagBits) (a : Cell) : (s.putFlags b).read a = s.read a := by
  cases b <;> rfl
@[simp] theorem stackAdjust_read (e : SideEffect) (a : Cell) : (s.stackAdjust e).read a = s.read a := by
  cases e <;> rfl
@[simp] theorem baseIncrement_read (e : SideEffect) (a : Cell) :
    (s.baseIncrement e).read a = s.read a := by cases e <;> rfl
@[simp] theorem jumpTo_read (j : Option Cell) (a : Cell) : (s.jumpTo j).read a = s.read a := by
  cases j <;> rfl
@[simp] theorem setReg_read (r : Reg) (v a : Cell) : (s.setReg r v).read a = s.read a := by
  cases r <;> rfl
@[simp] theorem inpTaken_read (a : Cell) : s.inpTaken.read a = s.read a :=
  read_congr s _ (inpTaken_mem s) a
@[simp] theorem ioOut_read (a : Cell) : s.ioOut.read a = s.read a := rfl
@[simp] theorem ioDisplay_read (a : Cell) : s.ioDisplay.read a = s.read a := rfl

end Sys2Proof.Machine
end

