-- ==== Sys2Proof/Laws/Memory.lean ====
section
/-! SUPPORT. Memory: what a read sees after each operation, and that every operation keeps the canonical form. -/

namespace Sys2Proof.Machine

@[simp] theorem lookup_nil (a : Nat) : Memory.lookup [] a = none := rfl

theorem lookup_cons (e : Host.Cell) (m : Memory) (a : Nat) :
    Memory.lookup (e :: m) a = if e.1 = a then some e.2 else Memory.lookup m a := rfl

theorem lookup_insert_same (m : Memory) (a : Nat) (v : BitVec 8) :
    (m.insert a v).lookup a = some v := by
  induction m with
  | nil => simp [Memory.insert, lookup_cons]
  | cons e m ih =>
    obtain ⟨b, w⟩ := e
    simp only [Memory.insert]
    split
    · simp [lookup_cons]
    · split
      · simp [lookup_cons]
      · rename_i h1 h2
        simp [lookup_cons, ih, Ne.symm h2]

theorem lookup_insert_other (m : Memory) (a b : Nat) (v : BitVec 8) (h : b ≠ a) :
    (m.insert a v).lookup b = m.lookup b := by
  induction m with
  | nil => simp [Memory.insert, lookup_cons, Ne.symm h]
  | cons e m ih =>
    obtain ⟨c, w⟩ := e
    simp only [Memory.insert]
    split
    · simp [lookup_cons, Ne.symm h]
    · split
      · rename_i h2
        subst h2
        simp [lookup_cons, Ne.symm h]
      · simp [lookup_cons, ih]

theorem lookup_filter (m : Memory) (p : Nat → Bool) (a : Nat) :
    Memory.lookup (m.filter fun e => p e.1) a = if p a then m.lookup a else none := by
  induction m with
  | nil => simp
  | cons e m ih =>
    obtain ⟨c, w⟩ := e
    by_cases hc : p c
    · simp only [List.filter_cons, hc, if_true, lookup_cons, ih]
      by_cases hca : c = a
      · subst hca; simp [hc]
      · simp [hca]
    · simp only [List.filter_cons, hc, lookup_cons]
      by_cases hca : c = a
      · subst hca; simpa [hc] using ih
      · simpa [hca] using ih

theorem lookup_erase (m : Memory) (a b : Nat) :
    (m.erase a).lookup b = if b = a then none else m.lookup b := by
  have h := lookup_filter m (fun c => c != a) b
  simp only [Memory.erase, h]
  by_cases hb : b = a <;> simp [hb]

@[simp] theorem read_write_same (m : Memory) (a v : Cell) : (m.write a v).read a = v := by
  unfold Memory.write
  split
  · rename_i h
    obtain ⟨h1, h2⟩ := Bool.and_eq_true_iff.mp h
    have hv : v = 0 := by simpa using h2
    simp only [Bool.not_eq_true'] at h1
    simp [Memory.read, lookup_erase, Memory.unlisted, h1, hv]
  · simp only [Memory.read, lookup_insert_same]
    simp

theorem read_write_other (m : Memory) (a b v : Cell) (h : b ≠ a) :
    (m.write a v).read b = m.read b := by
  have hn : b.toNat ≠ a.toNat := fun e => h (BitVec.eq_of_toNat_eq e)
  unfold Memory.write
  split
  · simp [Memory.read, lookup_erase, hn]
  · simp [Memory.read, lookup_insert_other _ _ _ _ hn]

/-- What a read sees after a write. -/
theorem read_write (m : Memory) (a b v : Cell) :
    (m.write a v).read b = if b = a then v else m.read b := by
  split
  · rename_i h; subst h; simp
  · rename_i h; exact read_write_other m a b v h

@[simp] theorem poke_read (s : State) (a v b : Cell) :
    (s.poke a v).read b = if b = a then v else s.read b := read_write s.mem a b v

/-! The canonical form. -/

theorem risingFrom_mono {m : Memory} {n k : Nat} (h : n ≤ k) (hm : Memory.risingFrom k m = true) :
    Memory.risingFrom n m = true := by
  cases m with
  | nil => rfl
  | cons e m =>
    obtain ⟨c, w⟩ := e
    simp only [Memory.risingFrom, Bool.and_eq_true, decide_eq_true_eq] at hm ⊢
    exact ⟨by omega, hm.2⟩

theorem risingFrom_filter (p : Host.Cell → Bool) {m : Memory} {n : Nat}
    (hm : Memory.risingFrom n m = true) : Memory.risingFrom n (m.filter p) = true := by
  induction m generalizing n with
  | nil => exact hm
  | cons e m ih =>
    obtain ⟨c, w⟩ := e
    simp only [Memory.risingFrom, Bool.and_eq_true, decide_eq_true_eq] at hm
    rw [List.filter_cons]
    split
    · simp only [Memory.risingFrom, Bool.and_eq_true, decide_eq_true_eq]
      exact ⟨hm.1, ih hm.2⟩
    · exact risingFrom_mono (by omega) (ih hm.2)

theorem risingFrom_insert {m : Memory} {n a : Nat} {v : BitVec 8} (ha : n ≤ a)
    (hm : Memory.risingFrom n m = true) : Memory.risingFrom n (m.insert a v) = true := by
  induction m generalizing n with
  | nil => simp [Memory.insert, Memory.risingFrom, ha]
  | cons e m ih =>
    obtain ⟨c, w⟩ := e
    simp only [Memory.risingFrom, Bool.and_eq_true, decide_eq_true_eq] at hm
    simp only [Memory.insert]
    split
    · simp only [Memory.risingFrom, Bool.and_eq_true, decide_eq_true_eq]
      exact ⟨ha, by omega, hm.2⟩
    · split
      · rename_i h; subst h
        simp only [Memory.risingFrom, Bool.and_eq_true, decide_eq_true_eq]
        exact ⟨ha, hm.2⟩
      · simp only [Memory.risingFrom, Bool.and_eq_true, decide_eq_true_eq]
        exact ⟨hm.1, ih (by omega) hm.2⟩

theorem all_insert {m : Memory} {a : Nat} {v : BitVec 8} (p : Host.Cell → Bool) (hv : p (a, v) = true)
    (hm : m.all p = true) : (m.insert a v).all p = true := by
  induction m with
  | nil => simp [Memory.insert, hv]
  | cons e m ih =>
    obtain ⟨c, w⟩ := e
    simp only [List.all_cons, Bool.and_eq_true] at hm
    simp only [Memory.insert]
    split
    · simp [hv, hm.1, hm.2]
    · split
      · simp [hv, hm.2]
      · simp [hm.1, ih hm.2]

theorem filter_wf (p : Host.Cell → Bool) {m : Memory} (h : m.wf = true) :
    Memory.wf (m.filter p) = true := by
  simp only [Memory.wf, Bool.and_eq_true] at h ⊢
  refine ⟨risingFrom_filter p h.1, ?_⟩
  rw [List.all_eq_true] at h ⊢
  intro e he
  exact h.2 e (List.mem_filter.mp he).1

/-- A write keeps the canonical form. -/
theorem write_wf {m : Memory} (a v : Cell) (h : m.wf = true) : (m.write a v).wf = true := by
  unfold Memory.write
  split
  · exact filter_wf _ h
  · rename_i hc
    simp only [Memory.wf, Bool.and_eq_true] at h ⊢
    refine ⟨risingFrom_insert (Nat.zero_le _) h.1, all_insert _ ?_ h.2⟩
    have ha := a.isLt
    have hv := v.isLt
    simp only [Memory.entryOk, Bool.and_eq_true, Bool.or_eq_true, decide_eq_true_eq, bne_iff_ne,
      BitVec.toNat_setWidth]
    refine ⟨⟨by omega, by omega⟩, ?_⟩
    by_cases hp : programBase ≤ a.toNat
    · exact .inl hp
    · refine .inr fun h0 => hc ?_
      have hv0 : v = 0 := by
        apply BitVec.eq_of_toNat_eq
        have := congrArg BitVec.toNat h0
        simp only [BitVec.toNat_setWidth] at this
        change v.toNat % 256 = 0 at this
        change v.toNat = 0
        omega
      simp [isProgram, hp, hv0]

@[simp] theorem nil_wf : Memory.wf [] = true := rfl

theorem poke_wf {s : State} (a v : Cell) (h : s.mem.wf = true) : (s.poke a v).mem.wf = true :=
  write_wf a v h

theorem fold_write_wf (f : Nat → Cell) (l : List Nat) {m : Memory} (h : m.wf = true) :
    Memory.wf (l.foldl (fun m a => Memory.write m (BitVec.ofNat 6 a) (f a)) m) = true := by
  induction l generalizing m with
  | nil => exact h
  | cons a l ih => exact ih (write_wf _ _ h)

theorem fill_wf {m : Memory} (n : Nat) (f : Nat → Cell) (h : m.wf = true) : (m.fill n f).wf = true :=
  fold_write_wf f _ h

/-- A filled memory is in the canonical form. -/
theorem filled_wf (f : Nat → Cell) : (Memory.filled f).wf = true := fill_wf 64 f nil_wf

/-- What a read sees after cells are filled. -/
theorem fill_read (m : Memory) (n : Nat) (f : Nat → Cell) (hn : n ≤ 64) (a : Cell) :
    (m.fill n f).read a = if a.toNat < n then f a.toNat else m.read a := by
  induction n with
  | zero => simp [Memory.fill]
  | succ n ih =>
    have step : m.fill (n + 1) f = (m.fill n f).write (BitVec.ofNat 6 n) (f n) := by
      simp [Memory.fill, List.range_succ]
    have hk : (BitVec.ofNat 6 n).toNat = n := by
      rw [BitVec.toNat_ofNat]; exact Nat.mod_eq_of_lt (by omega)
    rw [step, read_write, ih (by omega)]
    by_cases ha : a = BitVec.ofNat 6 n
    · subst ha; simp [hk]
    · have hne : a.toNat ≠ n := fun e => ha (BitVec.eq_of_toNat_eq (by rw [hk, e]))
      rw [if_neg ha]
      by_cases hl : a.toNat < n
      · rw [if_pos hl, if_pos (by omega)]
      · rw [if_neg hl, if_neg (by omega)]

theorem tickPhase_wf {s : State} (h : s.mem.wf = true) : s.tickPhase.mem.wf = true :=
  write_wf _ _ (write_wf _ _ h)

theorem ioInput_wf {s : State} (h : s.mem.wf = true) : s.ioInput.mem.wf = true := by
  rw [ioInput_mem]; exact write_wf _ _ h

theorem complete_wf {s : State} (h : s.mem.wf = true) : s.complete.mem.wf = true :=
  ioInput_wf (s := s.tickPhase.ioOut) (tickPhase_wf h)

theorem memWrite_wf {s t : State} {a v : Cell} (h : s.mem.wf = true) (ht : s.memWrite a v = .ok t) :
    t.mem.wf = true := by
  unfold State.memWrite at ht
  split at ht
  · split at ht
    · cases ht; exact h
    · cases ht
  · split at ht
    · cases ht; exact write_wf _ _ h
    · cases ht; exact write_wf _ _ h

theorem placeCells_wf (vs : List Cell) {s : State} (a : Cell) (h : s.mem.wf = true) :
    (s.placeCells a vs).mem.wf = true := by
  induction vs generalizing s a with
  | nil => exact h
  | cons v vs ih => exact ih _ (poke_wf a v h)

theorem applyReset_wf {s : State} (h : s.mem.wf = true) : s.applyReset.mem.wf = true :=
  fill_wf _ _ h

theorem resetCell_eq (v : ResetValues) (k : Fin 24) : resetCell v k.val = v.cells[k] := by
  simp [resetCell]

/-- What a cell reads as after a reset. -/
theorem applyReset_read (s : State) (a : Cell) :
    s.applyReset.read a = if isProgram a then s.read a else resetCell s.cfg.resetValues a.toNat := by
  change (s.mem.fill programBase (resetCell s.cfg.resetValues)).read a = _
  rw [fill_read _ _ _ (by decide)]
  by_cases h : programBase ≤ a.toNat
  · rw [if_neg (by omega), if_pos (by simpa [isProgram] using h)]; rfl
  · rw [if_pos (by omega), if_neg (by simpa [isProgram] using h)]

/-- Every cell's decided reset value is 0. -/
@[simp] theorem resetCell_decided (a : Nat) : resetCell decidedResetValues a = 0 := by
  unfold resetCell decidedResetValues
  simp only [Vector.toList_replicate, List.getD_eq_getElem?_getD, List.getElem?_replicate]
  split <;> rfl

/-- `State.reset` is what a reset gives under the initial configuration where nothing is loaded. -/
theorem applyReset_eq_reset {s : State} (hc : s.cfg = initialConfig) (hm : s.mem = [])
    (hq : s.inpQueue = []) (hd : s.draws = 0) : s.applyReset = State.reset := by
  have hf : Memory.fill [] programBase (resetCell decidedResetValues) = [] := by decide
  have hv : initialConfig.resetValues = decidedResetValues := rfl
  simp [State.applyReset, State.reset, hc, hm, hq, hd, hv, hf]

/-! Laying cells down. -/

theorem placeCells_reg (vs : List Cell) (s : State) (a : Cell) (r : Reg) :
    (s.placeCells a vs).reg r = s.reg r := by
  induction vs generalizing s a with
  | nil => rfl
  | cons v vs ih => show ((s.poke a v).placeCells (a+1) vs).reg r = _; rw [ih]; simp
/-- What a cell reads as after cells are laid down that do not wrap. -/
theorem placeCells_read (vs : List Cell) (s : State) (a b : Cell) (h : a.toNat + vs.length ≤ 64) :
    (s.placeCells a vs).read b =
      if a.toNat ≤ b.toNat ∧ b.toNat < a.toNat + vs.length then vs.getD (b.toNat - a.toNat) 0
      else s.read b := by
  induction vs generalizing s a with
  | nil => rw [if_neg (by simp)]; rfl
  | cons v vs ih =>
    show ((s.poke a v).placeCells (a+1) vs).read b = _
    by_cases hz : vs = []
    · subst hz
      show (s.poke a v).read b = _
      rw [poke_read]
      by_cases hb : b = a
      · subst hb; simp
      · have : b.toNat ≠ a.toNat := fun e => hb (BitVec.eq_of_toNat_eq e)
        rw [if_neg hb, if_neg (by simp; omega)]
    · have hl : 0 < vs.length := List.length_pos_iff.mpr hz
      have ha : (a + 1).toNat = a.toNat + 1 := by
        simp only [List.length_cons] at h
        rw [BitVec.toNat_add]; show (a.toNat + 1) % 64 = _; omega
      simp only [List.length_cons] at h ⊢
      rw [ih _ _ (by omega), ha, poke_read]
      by_cases h1 : a.toNat + 1 ≤ b.toNat ∧ b.toNat < a.toNat + 1 + vs.length
      · rw [if_pos h1, if_pos (by omega)]
        have : b.toNat - a.toNat = (b.toNat - (a.toNat+1)) + 1 := by omega
        rw [this]; simp
      · rw [if_neg h1]
        by_cases hb : b = a
        · subst hb; simp
        · have : b.toNat ≠ a.toNat := fun e => hb (BitVec.eq_of_toNat_eq e)
          rw [if_neg hb, if_neg (by omega)]

end Sys2Proof.Machine
end

