-- ==== Sys2Proof/Laws/Phases.lean ====
section
/-! SUPPORT. The shared phases of a step: for each, what it answers, said once. -/

namespace Sys2Proof.Machine

/-! Ends: `conclude`, TICK and IO. -/

@[simp] theorem conclude_ok (o : Operands) (s t : State) : conclude o s (.ok t) = .next t := rfl

@[simp] theorem conclude_error (o : Operands) (s : State) (c : FaultCause) :
    conclude o s (.error c) = .next (s.takeFault c o.opcode s.regI) := rfl

/-- The end of an instruction's phases is always a next state. -/
theorem conclude_next (o : Operands) (s : State) (r : Except FaultCause State) :
    ∃ t, conclude o s r = .next t := by
  cases r with
  | ok t => exact ⟨t, rfl⟩
  | error c => exact ⟨_, rfl⟩

theorem completeUnlessFaulted_run {s : State} (h : s.status = .run) :
    s.completeUnlessFaulted = s.complete := by
  simp [State.completeUnlessFaulted, h]

theorem completeUnlessFaulted_fault {s : State} (h : s.status ≠ .run) :
    s.completeUnlessFaulted = s := by
  unfold State.completeUnlessFaulted
  split
  · contradiction
  · rfl

/-- What every cell reads as after TICK and IO: the ticker cells show the new t, PORT is merged with the
input, nothing else changes. -/
theorem complete_read (s : State) (a : Cell) :
    s.complete.read a =
      if a = s.cfg.ioMap.port then
        portMerged (s.tickPhase.read s.cfg.ioMap.port) (s.tickPhase.read s.cfg.ioMap.dir) s.inpValue
      else if a = s.cfg.ioMap.tickSlow then slowOf (s.tick + 1)
      else if a = s.cfg.ioMap.tickFast then fastOf (s.tick + 1)
      else s.read a := by
  change (s.tickPhase.ioOut.inpTaken.poke s.cfg.ioMap.port
    (portMerged (s.tickPhase.read s.cfg.ioMap.port) (s.tickPhase.read s.cfg.ioMap.dir) s.inpValue)).read a = _
  rw [poke_read]
  split
  · rfl
  · simp only [inpTaken_read, ioOut_read]
    change ((({ s with tick := s.tick + 1 }).poke s.cfg.ioMap.tickFast (fastOf (s.tick + 1))).poke
      s.cfg.ioMap.tickSlow (slowOf (s.tick + 1))).read a = _
    rw [poke_read, poke_read]
    rfl

theorem tickPhase_read (s : State) (a : Cell) :
    s.tickPhase.read a =
      if a = s.cfg.ioMap.tickSlow then slowOf (s.tick + 1)
      else if a = s.cfg.ioMap.tickFast then fastOf (s.tick + 1)
      else s.read a := by
  change ((({ s with tick := s.tick + 1 }).poke s.cfg.ioMap.tickFast (fastOf (s.tick + 1))).poke
      s.cfg.ioMap.tickSlow (slowOf (s.tick + 1))).read a = _
  rw [poke_read, poke_read]
  rfl

theorem ioInput_read (s : State) (a : Cell) :
    s.ioInput.read a =
      if a = s.cfg.ioMap.port then
        portMerged (s.read s.cfg.ioMap.port) (s.read s.cfg.ioMap.dir) s.inpValue
      else s.read a := by
  unfold State.ioInput
  rw [poke_read, inpTaken_read]

/-! WRITEBACK. -/

/-- Everything a write through the filter can answer. -/
theorem memWrite_cases (s : State) (a v : Cell) :
    (isProgram a = true ∧ s.cfg.promWritePolicy = .ignore ∧ s.memWrite a v = .ok s) ∨
    (isProgram a = true ∧ s.cfg.promWritePolicy = .fault ∧ s.memWrite a v = .error .promWrite) ∨
    (isProgram a = false ∧ s.memWrite a v = .ok (s.poke a
      (if a = s.cfg.ioMap.port then portWritten (s.read a) (s.read s.cfg.ioMap.dir) v else v))) := by
  unfold State.memWrite
  cases hp : isProgram a
  · refine .inr (.inr ⟨rfl, ?_⟩)
    by_cases h : a = s.cfg.ioMap.port <;> simp [h]
  · cases hq : s.cfg.promWritePolicy <;> simp

/-- Everything a write to a location can answer. -/
theorem writeLoc_cases (s : State) (v : Cell) (loc : Loc) :
    (loc.readable = false ∧ s.writeLoc v loc = .error .undefinedTarget) ∨
    (∃ a, loc = .mem a ∧ isProgram a = true ∧ s.cfg.promWritePolicy = .fault ∧
      s.writeLoc v loc = .error .promWrite) ∨
    (∃ a, loc = .mem a ∧ isProgram a = true ∧ s.cfg.promWritePolicy = .ignore ∧
      s.writeLoc v loc = .ok s) ∨
    (∃ a, loc = .mem a ∧ isProgram a = false ∧ s.writeLoc v loc = .ok (s.poke a
      (if a = s.cfg.ioMap.port then portWritten (s.read a) (s.read s.cfg.ioMap.dir) v else v))) ∨
    (∃ r, loc = .reg r ∧ s.writeLoc v loc = .ok (s.setReg r v)) ∨
    (∃ x, loc = .flag x ∧ s.writeLoc v loc = .ok (s.setFlag x v)) := by
  cases loc with
  | mem a =>
    rcases memWrite_cases s a v with ⟨h1, h2, h3⟩ | ⟨h1, h2, h3⟩ | ⟨h1, h3⟩
    · exact .inr (.inr (.inl ⟨a, rfl, h1, h2, h3⟩))
    · exact .inr (.inl ⟨a, rfl, h1, h2, h3⟩)
    · exact .inr (.inr (.inr (.inl ⟨a, rfl, h1, h3⟩)))
  | reg r => exact .inr (.inr (.inr (.inr (.inl ⟨r, rfl, rfl⟩))))
  | flag x => exact .inr (.inr (.inr (.inr (.inr ⟨x, rfl, rfl⟩))))
  | imm v => exact .inl ⟨rfl, rfl⟩
  | none => exact .inl ⟨rfl, rfl⟩

/-- A location that is writable takes the write. -/
theorem writeLoc_ok {s : State} {loc : Loc} (v : Cell) (h : loc.writable s.cfg = true) :
    ∃ t, s.writeLoc v loc = .ok t := by
  rcases writeLoc_cases s v loc with ⟨h1, _⟩ | ⟨a, rfl, h1, h2, _⟩ | ⟨a, _, _, _, h3⟩ | ⟨a, _, _, h3⟩ |
    ⟨r, _, h3⟩ | ⟨x, _, h3⟩
  · cases loc <;> simp_all [Loc.writable, Loc.readable]
  · simp [Loc.writable, h1, h2] at h
  all_goals exact ⟨_, h3⟩

/-- A location that has no value to read has none to write to. -/
theorem readLoc_none (s : State) (loc : Loc) : s.readLoc loc = none ↔ loc.readable = false := by
  cases loc <;> simp [State.readLoc, Loc.readable]

theorem writable_readable {cfg : Config} {loc : Loc} (h : loc.writable cfg = true) :
    loc.readable = true := by
  cases loc <;> simp_all [Loc.writable, Loc.readable]

/-! What an update that touches only registers and memory keeps. -/

/-- t, the status, the latches, the environment and the configuration are the same. -/
def SameRest (s t : State) : Prop :=
  t.tick = s.tick ∧ t.status = s.status ∧ t.outLatch = s.outLatch ∧ t.display = s.display ∧
    t.inpQueue = s.inpQueue ∧ t.draws = s.draws ∧ t.cfg = s.cfg

theorem SameRest.refl (s : State) : SameRest s s := ⟨rfl, rfl, rfl, rfl, rfl, rfl, rfl⟩

theorem SameRest.trans {s t u : State} (h : SameRest s t) (k : SameRest t u) : SameRest s u := by
  obtain ⟨a1, a2, a3, a4, a5, a6, a7⟩ := h
  obtain ⟨b1, b2, b3, b4, b5, b6, b7⟩ := k
  exact ⟨b1.trans a1, b2.trans a2, b3.trans a3, b4.trans a4, b5.trans a5, b6.trans a6, b7.trans a7⟩

theorem poke_sameRest (s : State) (a v : Cell) : SameRest s (s.poke a v) := by simp [SameRest]
theorem setReg_sameRest (s : State) (r : Reg) (v : Cell) : SameRest s (s.setReg r v) := by
  simp [SameRest]
theorem setFlag_sameRest (s : State) (x : Flag) (v : Cell) : SameRest s (s.setFlag x v) := by
  simp [SameRest]
theorem advance_sameRest (s : State) (o : Operands) : SameRest s (s.advance o) := by simp [SameRest]
theorem putFlags_sameRest (s : State) (b : Option FlagBits) : SameRest s (s.putFlags b) := by
  simp [SameRest]
theorem stackAdjust_sameRest (s : State) (e : SideEffect) : SameRest s (s.stackAdjust e) := by
  simp [SameRest]
theorem baseIncrement_sameRest (s : State) (e : SideEffect) : SameRest s (s.baseIncrement e) := by
  simp [SameRest]
theorem jumpTo_sameRest (s : State) (j : Option Cell) : SameRest s (s.jumpTo j) := by simp [SameRest]

theorem writeLoc_sameRest {s t : State} {v : Cell} {loc : Loc} (h : s.writeLoc v loc = .ok t) :
    SameRest s t := by
  rcases writeLoc_cases s v loc with ⟨_, h1⟩ | ⟨_, _, _, _, h1⟩ | ⟨_, _, _, _, h1⟩ | ⟨_, _, _, h1⟩ |
    ⟨_, _, h1⟩ | ⟨_, _, h1⟩ <;> rw [h1] at h <;> cases h
  · exact .refl _
  · exact poke_sameRest _ _ _
  · exact setReg_sameRest _ _ _
  · exact setFlag_sameRest _ _ _

theorem writeLoc_wf {s t : State} {v : Cell} {loc : Loc} (hm : s.mem.wf = true)
    (h : s.writeLoc v loc = .ok t) : t.mem.wf = true := by
  rcases writeLoc_cases s v loc with ⟨_, h1⟩ | ⟨_, _, _, _, h1⟩ | ⟨_, _, _, _, h1⟩ | ⟨_, _, _, h1⟩ |
    ⟨_, _, h1⟩ | ⟨_, _, h1⟩ <;> rw [h1] at h <;> cases h
  · exact hm
  · exact poke_wf _ _ hm
  · rwa [setReg_mem]
  · exact hm

/-- A write to a location leaves every program cell as it is. -/
theorem writeLoc_program {s t : State} {v : Cell} {loc : Loc} (h : s.writeLoc v loc = .ok t) {b : Cell}
    (hb : isProgram b = true) : t.read b = s.read b := by
  rcases writeLoc_cases s v loc with ⟨_, h1⟩ | ⟨_, _, _, _, h1⟩ | ⟨_, _, _, _, h1⟩ | ⟨a, _, ha, h1⟩ |
    ⟨_, _, h1⟩ | ⟨_, _, h1⟩ <;> rw [h1] at h <;> cases h
  · rfl
  · rw [poke_read, if_neg]
    rintro rfl
    simp [ha] at hb
  · simp
  · rfl

/-! The skeletons of the classes. -/

/-- Phases FLAGS to BASE_INC, when they end. -/
theorem settle_ok {o : Operands} {loc : Loc} {e : Effect} {s t : State} (h : settle o loc e s = .ok t) :
    ∃ u, (s.putFlags e.flags).writeback loc e.write = .ok u ∧
      t = (u.jumpTo e.jump).baseIncrement o.sideEffect := by
  unfold settle at h
  split at h
  · cases h
  · rename_i u hu
    cases h
    exact ⟨u, hu, rfl⟩

theorem writeback_sameRest {s t : State} {loc : Loc} {w : Option Cell} (h : s.writeback loc w = .ok t) :
    SameRest s t := by
  cases w with
  | none => cases h; exact .refl _
  | some v => exact writeLoc_sameRest h

theorem writeback_wf {s t : State} {loc : Loc} {w : Option Cell} (hm : s.mem.wf = true)
    (h : s.writeback loc w = .ok t) : t.mem.wf = true := by
  cases w with
  | none => cases h; exact hm
  | some v => exact writeLoc_wf hm h

theorem writeback_program {s t : State} {loc : Loc} {w : Option Cell} (h : s.writeback loc w = .ok t)
    {b : Cell} (hb : isProgram b = true) : t.read b = s.read b := by
  cases w with
  | none => cases h; rfl
  | some v => exact writeLoc_program h hb

/-- What an instruction's phases up to BASE_INC keep, whatever the class: t, the status, the latches, the
environment, the configuration; the canonical form; every program cell. -/
structure PhasesKeep (s t : State) : Prop where
  rest : SameRest s t
  wf : s.mem.wf = true → t.mem.wf = true
  program : ∀ b : Cell, isProgram b = true → t.read b = s.read b

theorem PhasesKeep.trans {s t u : State} (h : PhasesKeep s t) (k : PhasesKeep t u) : PhasesKeep s u :=
  ⟨h.rest.trans k.rest, fun w => k.wf (h.wf w), fun b hb => (k.program b hb).trans (h.program b hb)⟩

theorem advance_keep (s : State) (o : Operands) : PhasesKeep s (s.advance o) :=
  ⟨advance_sameRest s o, id, fun _ _ => rfl⟩

theorem stackAdjust_keep (s : State) (e : SideEffect) : PhasesKeep s (s.stackAdjust e) :=
  ⟨stackAdjust_sameRest s e, by simp, by simp⟩

theorem baseIncrement_keep (s : State) (e : SideEffect) : PhasesKeep s (s.baseIncrement e) :=
  ⟨baseIncrement_sameRest s e, by simp, by simp⟩

theorem settle_keep {o : Operands} {loc : Loc} {e : Effect} {s t : State} (h : settle o loc e s = .ok t) :
    PhasesKeep s t := by
  obtain ⟨u, hu, rfl⟩ := settle_ok h
  refine ⟨?_, ?_, ?_⟩
  · exact (putFlags_sameRest _ _).trans ((writeback_sameRest hu).trans
      ((jumpTo_sameRest _ _).trans (baseIncrement_sameRest _ _)))
  · intro hm
    rw [baseIncrement_mem, jumpTo_mem]
    exact writeback_wf (by simpa using hm) hu
  · intro b hb
    rw [baseIncrement_read, jumpTo_read, writeback_program hu hb, putFlags_read]

theorem adjust_keep (s : State) (o : Operands) :
    PhasesKeep s ((s.advance o).stackAdjust o.sideEffect) :=
  (advance_keep s o).trans (stackAdjust_keep _ _)

theorem withSource_keep {o : Operands} {s t : State} {eff : Cell → State → Effect}
    (h : withSource o s eff = .ok t) : PhasesKeep s t := by
  unfold withSource at h
  split at h
  · cases h
  · exact (adjust_keep s o).trans (settle_keep h)

theorem withTarget_keep {o : Operands} {s t : State} {eff : Cell → State → Effect}
    (h : withTarget o s eff = .ok t) : PhasesKeep s t := by
  unfold withTarget at h
  split at h
  · cases h
  · exact (adjust_keep s o).trans (settle_keep h)

theorem withBoth_keep {o : Operands} {s t : State} {eff : Cell → Cell → Effect}
    (h : withBoth o s eff = .ok t) : PhasesKeep s t := by
  unfold withBoth at h
  split at h
  · cases h
  · exact withTarget_keep h

theorem placeCells_sameRest (vs : List Cell) (s : State) (a : Cell) :
    SameRest s (s.placeCells a vs) := by
  induction vs generalizing s a with
  | nil => exact .refl _
  | cons v vs ih => exact (poke_sameRest s a v).trans (ih _ _)

end Sys2Proof.Machine
end

