-- ==== Sys2Proof/Laws/Exec.lean ====
section
/-! SUPPORT. What `exec` and `step` can answer, said once, for every instruction. -/

namespace Sys2Proof.Machine

/-- The phases FETCH to BASE_INC of an instruction, before its end is concluded. STOP has none. -/
def phasesOf (i : Instr) (s : State) : Except FaultCause State :=
  match i with
  | .stop _ => .ok s
  | .nop o => .ok (((s.advance o).stackAdjust o.sideEffect).baseIncrement o.sideEffect)
  | .load o => withSource o s fun v _ => copyWithFlags v
  | .push o => withSource o s fun v _ => ⟨some v, none, none⟩
  | .pop o => withSource o s fun v _ => copyWithFlags v
  | .add o => withBoth o s fun tv v => (aluAdd tv v).effect
  | .sub o => withBoth o s fun tv v => (aluSub tv v).effect
  | .and o => withBoth o s fun tv v => (aluAnd tv v).effect
  | .or o => withBoth o s fun tv v => (aluOr tv v).effect
  | .xor o => withBoth o s fun tv v => (aluXor tv v).effect
  | .not o => withTarget o s fun tv _ => (aluNot tv).effect
  | .inc o => withTarget o s fun tv _ => (aluInc tv).effect
  | .dec o => withTarget o s fun tv _ => (aluDec tv).effect
  | .rol o => withTarget o s fun tv t => (aluRol tv (t.flag .c)).effect
  | .ror o => withTarget o s fun tv t => (aluRor tv (t.flag .c)).effect
  | .jmp o => jumpIf o s fun _ => true
  | .jz o => jumpIf o s fun t => t.flag .z
  | .jnz o => jumpIf o s fun t => !t.flag .z
  | .jc o => jumpIf o s fun t => t.flag .c
  | .jnc o => jumpIf o s fun t => !t.flag .c
  | .jm o => jumpIf o s fun t => t.flag .m
  | .jnm o => jumpIf o s fun t => !t.flag .m
  | .call o => withSource o s fun v t => ⟨some t.regI, none, some v⟩
  | .ret o => withSource o s fun v _ => ⟨some v, none, none⟩

/-- Every meaning is its phases, concluded. -/
theorem exec_eq (i : Instr) (s : State) : exec i s = conclude i.operands s (phasesOf i s) := by
  cases i <;> rfl

/-- What the phases of any instruction keep. -/
theorem phasesOf_keep {i : Instr} {s t : State} (h : phasesOf i s = .ok t) : PhasesKeep s t := by
  cases i with
  | stop o => cases h; exact ⟨.refl _, id, fun _ _ => rfl⟩
  | nop o => cases h; exact (adjust_keep s o).trans (baseIncrement_keep _ _)
  | load o | push o | pop o | jmp o | jz o | jnz o | jc o | jnc o | jm o | jnm o | call o | ret o =>
    simp only [phasesOf, jumpIf] at h
    exact withSource_keep h
  | add o | sub o | and o | or o | xor o =>
    simp only [phasesOf] at h
    exact withBoth_keep h
  | not o | inc o | dec o | rol o | ror o =>
    simp only [phasesOf] at h
    exact withTarget_keep h

/-- Everything `exec` can answer: a state its phases keep, or the fault entry. -/
theorem exec_cases (i : Instr) (s : State) :
    (∃ t, phasesOf i s = .ok t ∧ exec i s = .next t ∧ PhasesKeep s t) ∨
    (∃ c, phasesOf i s = .error c ∧ exec i s = .next (s.takeFault c i.operands.opcode s.regI)) := by
  rw [exec_eq]
  cases h : phasesOf i s with
  | ok t => exact .inl ⟨t, rfl, rfl, phasesOf_keep h⟩
  | error c => exact .inr ⟨c, rfl, rfl⟩

/-- Everything a step in status RUN can answer. -/
theorem step_cases {s : State} (hs : s.status = .run) :
    (s.halted = true ∧ step s = .next s) ∨
    (s.halted = false ∧ ∃ why, s.fetchDecode = .error why ∧ step s = .refused (.undecodable why)) ∨
    (s.halted = false ∧ ∃ i t, s.fetchDecode = .ok i ∧ phasesOf i s = .ok t ∧ PhasesKeep s t ∧
      step s = .next t.complete) ∨
    (s.halted = false ∧ ∃ i c, s.fetchDecode = .ok i ∧ phasesOf i s = .error c ∧
      step s = .next (s.takeFault c i.operands.opcode s.regI)) := by
  unfold step
  rw [hs]
  cases hh : s.halted
  · simp only [Bool.false_eq_true, if_false, false_and, true_and, false_or]
    cases hd : s.fetchDecode with
    | error why => exact .inl ⟨why, rfl, rfl⟩
    | ok i =>
      rcases exec_cases i s with ⟨t, h1, h2, h3⟩ | ⟨c, h1, h2⟩
      · refine .inr (.inl ⟨i, t, rfl, h1, h3, ?_⟩)
        simp only [runInstr, h2]
        rw [completeUnlessFaulted_run (h3.rest.2.1.trans hs)]
      · refine .inr (.inr ⟨i, c, rfl, h1, ?_⟩)
        simp only [runInstr, h2]
        rw [completeUnlessFaulted_fault]
        simp
  · exact .inl ⟨rfl, rfl⟩

/-- A step from status FAULT has no successor. -/
theorem step_fault {s : State} {r : FaultRecord} (hs : s.status = .fault r) :
    step s = .fault (.faulted r) := by
  unfold step; rw [hs]

end Sys2Proof.Machine
end

