-- ==== Sys2Proof/Laws/Decode.lean ====
section
/-! SUPPORT. Decode: what it answers, said once. -/

namespace Sys2Proof.Machine

theorem ofClass_cls (c : OperationClass) (o : Operands) : (Instr.ofClass c o).cls = c := by cases c <;> rfl
theorem ofClass_operands (c : OperationClass) (o : Operands) : (Instr.ofClass c o).operands = o := by cases c <;> rfl
theorem ofClass_eta (i : Instr) : Instr.ofClass i.cls i.operands = i := by cases i <;> rfl

/-- What decode can answer: a well-formed instruction, whose cells were the first ones. -/
theorem decode_ok {cfg : Config} {cells : List Cell} {i : Instr} {rest : List Cell}
    (h : decode cfg cells = .ok (i, rest)) :
    i.wellFormed cfg = true ∧ cells = encode i ++ rest := by
  cases cells with
  | nil => cases h
  | cons op cells =>
    rw [decode] at h
    split at h
    · cases h
    · rename_i c hc
      split at h
      · cases h
      · rename_i src hsrc
        split at h
        · cases h
        · rename_i tgt htgt
          unfold decodeRow at h
          split at h
          · cases h
          · rename_i ha
            split at h
            · cases h
            · rename_i hi
              split at h
              · cases h
              · rename_i hst
                simp only [Bool.not_eq_eq_eq_not, Bool.not_true, Bool.not_eq_false] at ha hi hst
                unfold takeImmediate at h
                cases hti : (cfg.isa op).takesImmediate
                · simp only [hti, Bool.false_eq_true, if_false] at h
                  cases h
                  refine ⟨?_, ?_⟩
                  · simp only [Instr.wellFormed, Instr.record, ofClass_cls, ofClass_operands, Bool.and_eq_true]
                    rw [hti] at hi
                    refine ⟨⟨⟨⟨?_, ha⟩, hi⟩, hst⟩, by rfl⟩
                    rw [beq_iff_eq]
                    cases hr : cfg.isa op
                    simp_all
                  · simp [encode, ofClass_operands]
                · simp only [hti, if_true] at h
                  cases cells with
                  | nil => cases h
                  | cons v rest' =>
                    cases h
                    refine ⟨?_, ?_⟩
                    · simp only [Instr.wellFormed, Instr.record, ofClass_cls, ofClass_operands, Bool.and_eq_true]
                      rw [hti] at hi
                      refine ⟨⟨⟨⟨?_, ha⟩, hi⟩, hst⟩, by rfl⟩
                      rw [beq_iff_eq]
                      cases hr : cfg.isa op
                      simp_all
                    · simp [encode, ofClass_operands]

/-- What a fetch decodes is decoded from the cells it may read. -/
theorem fetchDecode_ok {s : State} {i : Instr} (h : s.fetchDecode = .ok i) :
    ∃ rest, decode s.cfg s.fetchCells = .ok (i, rest) := by
  unfold State.fetchDecode at h
  split at h
  · rename_i j rest hd; cases h; exact ⟨rest, hd⟩
  · cases h

end Sys2Proof.Machine
end

