-- ==== Sys2Proof/Laws/PerInstr.lean ====
section
/-! SUPPORT. Families of lemmas with one lemma per instruction. -/

namespace Sys2Proof.Laws.EncodedLength

/-- An instruction's cells: the opcode first, then the immediate exactly when it takes one, and no other
length (30_encoding.md R100). -/
def Statement (i : Instr) : Prop :=
  (encode i).head? = some i.operands.opcode ∧
    (encode i).length = i.operands.length ∧
    (i.operands.takesImmediate = true → (encode i)[1]? = some i.operands.imm)

theorem all (i : Instr) : Statement i := by
  unfold Statement encode Operands.length
  split <;> simp_all

theorem stop (o : Operands) : Statement (.stop o) := all _
theorem nop (o : Operands) : Statement (.nop o) := all _
theorem load (o : Operands) : Statement (.load o) := all _
theorem push (o : Operands) : Statement (.push o) := all _
theorem pop (o : Operands) : Statement (.pop o) := all _
theorem add (o : Operands) : Statement (.add o) := all _
theorem sub (o : Operands) : Statement (.sub o) := all _
theorem and (o : Operands) : Statement (.and o) := all _
theorem or (o : Operands) : Statement (.or o) := all _
theorem xor (o : Operands) : Statement (.xor o) := all _
theorem not (o : Operands) : Statement (.not o) := all _
theorem inc (o : Operands) : Statement (.inc o) := all _
theorem dec (o : Operands) : Statement (.dec o) := all _
theorem rol (o : Operands) : Statement (.rol o) := all _
theorem ror (o : Operands) : Statement (.ror o) := all _
theorem jmp (o : Operands) : Statement (.jmp o) := all _
theorem jz (o : Operands) : Statement (.jz o) := all _
theorem jnz (o : Operands) : Statement (.jnz o) := all _
theorem jc (o : Operands) : Statement (.jc o) := all _
theorem jnc (o : Operands) : Statement (.jnc o) := all _
theorem jm (o : Operands) : Statement (.jm o) := all _
theorem jnm (o : Operands) : Statement (.jnm o) := all _
theorem call (o : Operands) : Statement (.call o) := all _
theorem ret (o : Operands) : Statement (.ret o) := all _

end Sys2Proof.Laws.EncodedLength
end

