-- ==== Sys2Proof/Laws/Run.lean ====
section
/-! SUPPORT. Runs of the core, one step at a time, and what a completed step is. -/

namespace Sys2Proof.Machine

theorem mrun_next (M : Host.Core) (n : Nat) (s t : M.State) (h : M.step s = .next t) :
    M.run (n + 1) s = M.run n t := by
  simp [Host.Core.run, h]

theorem mrun_fault (M : Host.Core) (n : Nat) (s : M.State) (r : M.Fault) (h : M.step s = .fault r) :
    M.run (n + 1) s = .fault r := by
  simp [Host.Core.run, h]

theorem mrun_refused (M : Host.Core) (n : Nat) (s : M.State) (r : M.Refusal)
    (h : M.step s = .refused r) : M.run (n + 1) s = .refused r := by
  simp [Host.Core.run, h]

theorem run_next {s t : State} (n : Nat) (h : step s = .next t) :
    Host.Core.run Sys2Proof.core (n + 1) s = Host.Core.run Sys2Proof.core n t :=
  mrun_next Sys2Proof.core n s t h

theorem run_fault {s : State} {r : Fault} (n : Nat) (h : step s = .fault r) :
    Host.Core.run Sys2Proof.core (n + 1) s = .fault r :=
  mrun_fault Sys2Proof.core n s r h

theorem run_refused {s : State} {r : Refusal} (n : Nat) (h : step s = .refused r) :
    Host.Core.run Sys2Proof.core (n + 1) s = .refused r :=
  mrun_refused Sys2Proof.core n s r h

/-- Everything a completed step is: the phases of the decoded instruction, then TICK and IO. -/
theorem completedStep_cases {s t : State} (h : CompletedStep s t) :
    s.status = .run ∧ s.halted = false ∧
      ∃ i u, s.fetchDecode = .ok i ∧ phasesOf i s = .ok u ∧ PhasesKeep s u ∧ t = u.complete := by
  obtain ⟨hh, h, ht⟩ := h
  cases hs : s.status with
  | fault r => rw [step_fault hs] at h; cases h
  | run =>
    rcases step_cases hs with ⟨hh2, h1⟩ | ⟨hh, why, _, h1⟩ | ⟨hh, i, u, hf, hp, hk, h1⟩ | ⟨hh, i, c, hf, hp, h1⟩ <;> rw [h1] at h <;> cases h
    · rw [hh] at hh2; cases hh2
    · exact ⟨rfl, hh, i, u, hf, hp, hk, rfl⟩
    · simp at ht

end Sys2Proof.Machine
end

