-- ==== Sys2Proof/Tests/Slice0.lean ====
section
/-! SUPPORT. Tests: decode words written out from the spec, the checks of WellFormed refusing ill-formed
terms, one-step vectors of 95_test_vectors.md Part 3, and a witness for the hypotheses of each statement. -/

namespace Sys2Proof.Tests

open Sys2Proof.Machine Sys2Proof.Claims

/-! Helpers. -/

/-- `Tex` of 95_test_vectors.md Part 2, and on opcodes it leaves NOP the extra rows that Part 3 names. -/
def testRow : Nat → OpcodeRecord
  | 0o41 => listedRow .jnc .imm (.reg .i) true .none
  | 0o42 => listedRow .jm .imm (.reg .i) true .none
  | 0o43 => listedRow .jnm .imm (.reg .i) true .none
  | 0o44 => listedRow .push (.reg .s) .stackInd false .preDecStack
  | 0o45 => listedRow .load .baseInd (.reg .b) false .postIncBase
  | 0o46 => listedRow .jz .imm .none true .none
  | 0o47 => listedRow .add .imm (.reg .f) true .none
  | 0o50 => listedRow .load .none (.reg .a) false .none
  | 0o51 => listedRow .add .imm .imm true .none
  | op => texRow op

def testConfig : Config := decidedConfig testRow 0o77 fun k => Char.ofNat (k + 32)

/-- The test configuration with one row replaced. -/
def withRow (op : Nat) (r : OpcodeRecord) : Config :=
  decidedConfig (fun k => if k = op then r else testRow k) 0o77 fun k => Char.ofNat (k + 32)

/-- The reset state under the test configuration, cells at 0o30 on, and 0o45 on the input pins. -/
def boot (cells : List Cell) : State :=
  ({ State.reset with cfg := testConfig, inpQueue := [0o45] } : State).placeCells 0o30 cells

/-- What a step leads to shows this. -/
def shows (s : State) (p : State → Bool) : Bool :=
  match step s with
  | .next t => p t
  | .fault _ => false
  | .refused _ => false

/-- The cells decode to this instruction. -/
def decodesTo (cells : List Cell) (i : Instr) : Bool :=
  match decode testConfig cells with
  | .ok (j, _) => j == i
  | .error _ => false

/-- The step is refused so. -/
def refusesWith (s : State) (why : DecodeRefusal) : Bool :=
  match step s with
  | .refused (.undecodable w) => w == why
  | _ => false

/-! WellFormed: each check refuses an ill-formed term. -/

theorem test_table_is_admitted : testConfig.tableAdmitted = true := by decide

theorem test_admits_refuses_decided_class :
    ({ testConfig with admitDecidedClasses := false } : Config).admits .sub = false := by decide

theorem test_w1_refuses_unfetched_immediate : immediateFetched .imm (.reg .a) false = false := by decide

theorem test_w2_refuses_second_stop : testConfig.stopAgrees 0o76 .stop = false := by decide

theorem test_w2_refuses_other_class_at_stop : testConfig.stopAgrees 0o77 .nop = false := by decide

theorem test_row_refuses_unlisted_class :
    (withRow 0o60 ⟨.unlisted "MUL", .listed .imm, .listed (.reg .a), true, .none⟩).rowAdmitted 0o60 = false := by
  decide

theorem test_table_refuses_unlisted_mode :
    (withRow 0o60 ⟨.listed .load, .unlisted "Q8", .listed (.reg .a), false, .none⟩).tableAdmitted = false := by
  decide

theorem test_masks_refuse_shared_bit : (FlagMasks.mk 0o01 0o03 0o04).wellFormed = false := by decide

theorem test_masks_refuse_empty_mask : (FlagMasks.mk 0o01 0 0o04).wellFormed = false := by decide

theorem test_ioMap_refuses_outside_region : ({ decidedIoMap with dir := 0o17 } : IoMap).wellFormed = false := by
  decide

theorem test_ioMap_refuses_shared_cell : ({ decidedIoMap with port := 0o20 } : IoMap).wellFormed = false := by
  decide

theorem test_charset_refuses_repeat :
    (decidedConfig testRow 0o77 fun _ => 'A').charsetInjective = false := by decide

theorem test_config_refuses_bad_masks :
    ({ testConfig with flagMask := ⟨0o01, 0o01, 0o04⟩ } : Config).wellFormed = false := by decide

theorem test_instr_refuses_other_record :
    (Instr.load ⟨0o01, .imm, .reg .b, true, 5, .none⟩).wellFormed testConfig = false := by decide

theorem test_instr_refuses_unfetched_value :
    (Instr.dec ⟨0o13, .none, .reg .a, false, 5, .none⟩).wellFormed testConfig = false := by decide

theorem test_memory_refuses_disorder : Memory.wf [(0o31, 1), (0o30, 1)] = false := by decide

theorem test_memory_refuses_seventh_bit : Memory.wf [(0o30, 64)] = false := by decide

theorem test_memory_refuses_listed_default : Memory.wf [(0o07, 0)] = false := by decide

/-! Decode: one word for every instruction, cell 0 in bits 5 to 0, cell 1 in bits 11 to 6. -/

theorem test_decode_stop :
    decodesTo (cellsOfWord 6 0b111111) (.stop ⟨0o77, .none, .none, false, 0, .none⟩) = true := by decide

theorem test_decode_nop :
    decodesTo (cellsOfWord 6 0b011000) (.nop ⟨0o30, .none, .none, false, 0, .none⟩) = true := by decide

theorem test_decode_load :
    decodesTo (cellsOfWord 12 0b000101_000001) (.load ⟨0o01, .imm, .reg .a, true, 0o05, .none⟩) = true := by decide

theorem test_decode_push :
    decodesTo (cellsOfWord 6 0b000101) (.push ⟨0o05, .reg .a, .stackInd, false, 0, .preDecStack⟩) = true := by decide

theorem test_decode_pop :
    decodesTo (cellsOfWord 6 0b000111) (.pop ⟨0o07, .stackInd, .reg .f, false, 0, .postIncStack⟩) = true := by decide

theorem test_decode_add :
    decodesTo (cellsOfWord 12 0b010000_001010) (.add ⟨0o12, .immInd, .reg .a, true, 0o20, .none⟩) = true := by decide

theorem test_decode_sub :
    decodesTo (cellsOfWord 12 0b101000_010011) (.sub ⟨0o23, .imm, .reg .a, true, 0o50, .none⟩) = true := by decide

theorem test_decode_and :
    decodesTo (cellsOfWord 12 0b100011_011100) (.and ⟨0o34, .imm, .reg .a, true, 0o43, .none⟩) = true := by decide

theorem test_decode_or :
    decodesTo (cellsOfWord 12 0b100000_011101) (.or ⟨0o35, .imm, .reg .a, true, 0o40, .none⟩) = true := by decide

theorem test_decode_xor :
    decodesTo (cellsOfWord 12 0b111111_011110) (.xor ⟨0o36, .imm, .reg .a, true, 0o77, .none⟩) = true := by decide

theorem test_decode_not :
    decodesTo (cellsOfWord 6 0b011111) (.not ⟨0o37, .none, .reg .a, false, 0, .none⟩) = true := by decide

theorem test_decode_inc :
    decodesTo (cellsOfWord 6 0b001100) (.inc ⟨0o14, .none, .reg .a, false, 0, .none⟩) = true := by decide

theorem test_decode_dec :
    decodesTo (cellsOfWord 6 0b001011) (.dec ⟨0o13, .none, .reg .a, false, 0, .none⟩) = true := by decide

theorem test_decode_rol :
    decodesTo (cellsOfWord 6 0b010100) (.rol ⟨0o24, .none, .reg .a, false, 0, .none⟩) = true := by decide

theorem test_decode_ror :
    decodesTo (cellsOfWord 6 0b010101) (.ror ⟨0o25, .none, .reg .a, false, 0, .none⟩) = true := by decide

theorem test_decode_jmp :
    decodesTo (cellsOfWord 12 0b100000_001110) (.jmp ⟨0o16, .imm, .reg .i, true, 0o40, .none⟩) = true := by decide

theorem test_decode_jz :
    decodesTo (cellsOfWord 12 0b101000_011010) (.jz ⟨0o32, .imm, .reg .i, true, 0o50, .none⟩) = true := by decide

theorem test_decode_jnz :
    decodesTo (cellsOfWord 12 0b011010_001101) (.jnz ⟨0o15, .imm, .reg .i, true, 0o32, .none⟩) = true := by decide

theorem test_decode_jc :
    decodesTo (cellsOfWord 12 0b011111_011001) (.jc ⟨0o31, .imm, .reg .i, true, 0o37, .none⟩) = true := by decide

theorem test_decode_jnc :
    decodesTo (cellsOfWord 12 0b110000_100001) (.jnc ⟨0o41, .imm, .reg .i, true, 0o60, .none⟩) = true := by decide

theorem test_decode_jm :
    decodesTo (cellsOfWord 12 0b111000_100010) (.jm ⟨0o42, .imm, .reg .i, true, 0o70, .none⟩) = true := by decide

theorem test_decode_jnm :
    decodesTo (cellsOfWord 12 0b111000_100011) (.jnm ⟨0o43, .imm, .reg .i, true, 0o70, .none⟩) = true := by decide

theorem test_decode_call :
    decodesTo (cellsOfWord 12 0b101000_001111) (.call ⟨0o17, .imm, .stackInd, true, 0o50, .preDecStack⟩) = true := by decide

theorem test_decode_ret :
    decodesTo (cellsOfWord 6 0b010000) (.ret ⟨0o20, .stackInd, .reg .i, false, 0, .postIncStack⟩) = true := by decide

theorem test_decode_base_indexed :
    decodesTo (cellsOfWord 6 0b000011) (.load ⟨0o03, .baseInd, .reg .a, false, 0, .postIncBase⟩) = true := by
  decide

theorem test_decode_quick_page :
    decodesTo (cellsOfWord 6 0b010010) (.load ⟨0o22, .reg .a, .quick 3, false, 0, .none⟩) = true := by decide

theorem test_word_bits_above_nbits_are_zero : cellsOfWord 6 0b000101_000001 = [0o01, 0] := by decide

theorem test_encode_puts_the_opcode_first :
    encode (.call ⟨0o17, .imm, .stackInd, true, 0o50, .preDecStack⟩) = [0o17, 0o50] := by decide

/-! One step: the vectors of 95_test_vectors.md Part 3, expected values from there. -/

theorem test_nop_only_advances :
    shows (boot [0o30]) (fun t => t.regI == 0o31 && t.tick == 1 && t.regF == 0) = true := by decide

theorem test_stop_changes_nothing :
    shows (boot [0o77]) (fun t => t.regI == 0o30 && t.tick == 0 && t.inpQueue == [0o45]) = true := by decide

theorem test_load_clears_carry :
    shows ({ boot [0o01, 0o17] with regF := 0o01 }) (fun t => t.regA == 0o17 && t.regF == 0 && t.regI == 0o32) = true := by decide

theorem test_load_zero_into_carry :
    shows ({ boot [0o27, 0] with regF := 0o07 }) (fun t => t.regF == 0o04) = true := by decide

theorem test_push_at_stack_bottom :
    shows ({ boot [0o05] with regA := 1, regS := 0o10 }) (fun t => t.read 0o07 == 1 && t.regS == 0o07) = true := by decide

theorem test_push_of_S_stores_old_S :
    shows (boot [0o44]) (fun t => t.read 0o17 == 0o20 && t.regS == 0o17) = true := by decide

theorem test_pop_into_F_keeps_the_value :
    shows ({ (boot [0o07]).poke 0o16 0o22 with regS := 0o16 }) (fun t => t.regF == 0o22 && t.regS == 0o17) = true := by decide

theorem test_pop_wraps :
    shows ({ (boot [0o10]).poke 0o77 0o14 with regS := 0o77 }) (fun t => t.regA == 0o14 && t.regS == 0) = true := by decide

theorem test_add_of_64_is_not_zero :
    shows ({ boot [0o11, 0o40] with regA := 0o40, regF := 0o70 }) (fun t => t.regA == 0 && t.regF == 0o71) = true := by decide

theorem test_add_into_F_keeps_the_value :
    shows (boot [0o47, 0o40]) (fun t => t.regF == 0o40) = true := by decide

theorem test_sub_negative_sets_carry_and_minus :
    shows (boot [0o23, 0o50]) (fun t => t.regA == 0o30 && t.regF == 0o03) = true := by decide

theorem test_and_takes_common_bits :
    shows ({ boot [0o34, 0o43] with regA := 0o56 }) (fun t => t.regA == 0o42 && t.regF == 0o02) = true := by decide

theorem test_or_joins_bits :
    shows ({ boot [0o35, 0o40] with regA := 0o01 }) (fun t => t.regA == 0o41 && t.regF == 0o02) = true := by decide

theorem test_xor_complements :
    shows ({ boot [0o36, 0o77] with regA := 0o52 }) (fun t => t.regA == 0o25 && t.regF == 0) = true := by decide

theorem test_not_keeps_carry_clear :
    shows (boot [0o37]) (fun t => t.regA == 0o77 && t.regF == 0o02) = true := by decide

theorem test_inc_wrap_is_not_zero :
    shows ({ boot [0o14] with regA := 0o77 }) (fun t => t.regA == 0 && t.regF == 0o01) = true := by decide

theorem test_dec_wrap :
    shows (boot [0o13]) (fun t => t.regA == 0o77 && t.regF == 0o03) = true := by decide

theorem test_rol_out_to_zero :
    shows ({ boot [0o24] with regA := 0o40 }) (fun t => t.regA == 0 && t.regF == 0o05) = true := by decide

theorem test_ror_takes_the_carry :
    shows ({ boot [0o25] with regA := 0o03, regF := 0o01 }) (fun t => t.regA == 0o41 && t.regF == 0o03) = true := by decide

theorem test_jmp_to_ram :
    shows (boot [0o16, 0o05]) (fun t => t.regI == 0o05) = true := by decide

theorem test_jz_after_wrap_not_taken :
    shows ({ boot [0o32, 0o50] with regF := 0o01 }) (fun t => t.regI == 0o32) = true := by decide

theorem test_jnz_taken :
    shows (boot [0o15, 0o32]) (fun t => t.regI == 0o32) = true := by decide

theorem test_jnz_not_taken :
    shows ({ boot [0o15, 0o50] with regF := 0o04 }) (fun t => t.regI == 0o32) = true := by decide

theorem test_jc_taken :
    shows ({ boot [0o31, 0o50] with regF := 0o01 }) (fun t => t.regI == 0o50) = true := by decide

theorem test_jnc_taken :
    shows (boot [0o41, 0o60]) (fun t => t.regI == 0o60) = true := by decide

theorem test_jm_taken :
    shows ({ boot [0o42, 0o70] with regF := 0o02 }) (fun t => t.regI == 0o70) = true := by decide

theorem test_jnm_not_taken :
    shows ({ boot [0o43, 0o70] with regF := 0o02 }) (fun t => t.regI == 0o32) = true := by decide

theorem test_call_pushes_post_fetch_I :
    shows (boot [0o17, 0o50]) (fun t => t.read 0o17 == 0o32 && t.regS == 0o17 && t.regI == 0o50) = true := by decide

theorem test_call_at_top_of_memory :
    shows ({ ((boot []).poke 0o76 0o17).poke 0o77 0o40 with regI := 0o76 }) (fun t => t.read 0o17 == 0 && t.regI == 0o40) = true := by decide

theorem test_return_on_empty_stack :
    shows (boot [0o20]) (fun t => t.regI == 0 && t.regS == 0o21) = true := by decide

theorem test_base_increment_after_the_write :
    shows ((boot [0o45]).poke 0 5) (fun t => t.regB == 6) = true := by decide

theorem test_fetch_wraps :
    shows ({ ((boot []).poke 0o77 0o01).poke 0 5 with regI := 0o77 }) (fun t => t.regA == 5 && t.regI == 0o01) = true := by decide

theorem test_program_write_is_dropped :
    shows ({ (boot [0o04, 0o40]).poke 0o40 0o33 with regA := 0o11 }) (fun t => t.read 0o40 == 0o33 && t.regF == 0 && t.regI == 0o32) = true := by decide

theorem test_port_write_is_masked :
    shows ({ ((boot [0o04, 0o21]).poke 0o20 0o17).poke 0o21 0o60 with regA := 0o52 }) (fun t => t.outLatch == 0o12 && t.read 0o21 == 0o52) = true := by decide

theorem test_all_pins_input :
    shows (boot [0o30]) (fun t => t.outLatch == 0 && t.read 0o21 == 0o45) = true := by decide

theorem test_ticker_write_is_overwritten :
    shows ({ boot [0o04, 0o27] with regA := 0o55, tick := 6 }) (fun t => t.read 0o27 == 0 && t.tick == 7) = true := by decide

theorem test_fast_ticker_wraps :
    shows ({ boot [0o30] with tick := 511 }) (fun t => t.read 0o27 == 0 && t.read 0o26 == 1) = true := by decide

theorem test_both_tickers_wrap :
    shows ({ boot [0o30] with tick := 32767 }) (fun t => t.tick == 0 && t.read 0o27 == 0 && t.read 0o26 == 0) = true := by decide

theorem test_undefined_target_faults :
    shows ({ (boot []).poke 0o32 0o33 with regI := 0o32 }) (fun t => t.status == .fault ⟨.undefinedTarget, 0o33, 0o32⟩ && t.tick == 0) = true := by decide

theorem test_undefined_source_faults :
    shows (boot [0o50]) (fun t => t.status == .fault ⟨.undefinedSource, 0o50, 0o30⟩) = true := by decide

theorem test_imm_target_faults_at_the_read :
    shows (boot [0o51, 0]) (fun t => t.status == .fault ⟨.undefinedTarget, 0o51, 0o30⟩) = true := by decide

theorem test_program_write_faults_by_policy :
    shows ({ boot [0o04, 0o40] with cfg := { testConfig with promWritePolicy := .fault } }) (fun t => t.status == .fault ⟨.promWrite, 0o04, 0o30⟩) = true := by decide

theorem test_untaken_jump_needs_no_target :
    shows (boot [0o46, 0]) (fun t => t.status == .run && t.regI == 0o32) = true := by decide

theorem test_fault_state_has_no_step :
    step { boot [0o30] with status := .fault ⟨.undefinedSource, 1, 2⟩ } =
      .fault (.faulted ⟨.undefinedSource, 1, 2⟩) := rfl

theorem test_unlisted_class_is_refused :
    refusesWith { boot [0o60] with
      cfg := withRow 0o60 ⟨.unlisted "MUL", .listed .imm, .listed (.reg .a), true, .none⟩ }
      (.classNotListed 0o60 "MUL") = true := by decide

/-- At the ceiling the model answers `limit` though the machine stands at STOP (log 29). -/
theorem test_run_limit_is_tested_first :
    (hostRun [] (boot [0o77])).1 = .limit ∧ (hostRun [1] (boot [0o77])).1 = .halted := by decide

/-- A step that faults is not counted (log 30). -/
theorem test_run_does_not_count_the_faulting_step :
    (hostRun [1, 2] (boot [0o50])).2.1 = 0 ∧
      (hostRun [1, 2] (boot [0o50])).1 = .fault ⟨.undefinedSource, 0o50, 0o30⟩ := by decide

/-- In status FAULT the host's calls report the held record again (log 31). -/
theorem test_host_calls_report_a_held_fault :
    hostStep 1 { boot [0o30] with status := .fault ⟨.undefinedSource, 1, 2⟩ } =
        (.fault ⟨.undefinedSource, 1, 2⟩, { boot [0o30] with status := .fault ⟨.undefinedSource, 1, 2⟩ }) ∧
      hostRun [1, 2] { boot [0o30] with status := .fault ⟨.undefinedSource, 1, 2⟩ } =
        (.fault ⟨.undefinedSource, 1, 2⟩, 0,
          { boot [0o30] with status := .fault ⟨.undefinedSource, 1, 2⟩ }) := ⟨rfl, rfl⟩

/-- The test state under other reset values than the decided ones. -/
def otherReset : State :=
  { boot [] with cfg := { testConfig with
      resetValues := { decidedResetValues with cells := Vector.replicate 24 0o44, tick := 7, outLatch := 3 } } }

theorem test_reset_takes_every_configured_value :
    otherReset.applyReset.read 0 = 0o44 ∧ otherReset.applyReset.read 0o27 = 0o44 ∧
      otherReset.applyReset.tick = 7 ∧ otherReset.applyReset.outLatch = 3 ∧
      otherReset.applyReset.regI = 0o30 := by decide

theorem test_alu_outputs_the_pre_mask_result :
    (aluSub 0 0o50).preMask = -40 ∧ (aluAdd 0o77 0o77).preMask = 126 ∧ (aluRol 0o41 false).preMask = 2 := by
  decide

theorem test_text_image_needs_forty_cells : imageOfText testConfig ['A'] = none := by decide

/-! Witnesses: for each statement with hypotheses, a state and operands that meet them, clause by clause. -/

/-- The first and the last cell below the program region, the first and the last in it. -/
theorem witness_ResetStateHoldsTheDecidedValues :
    (0 : Cell).toNat < 0o30 ∧ (0o27 : Cell).toNat < 0o30 ∧ 0o30 ≤ (0o30 : Cell).toNat ∧
      0o30 ≤ (0o77 : Cell).toNat := by decide

theorem witness_HostResetRestoresAllButTheProgram :
    (boot []).cfg.resetValues = decidedResetValues ∧ (0o27 : Cell).toNat < 0o30 ∧
      0o30 ≤ (0o30 : Cell).toNat := ⟨rfl, by decide, by decide⟩

def zeroImage : Image := Vector.replicate 40 0

theorem witness_CleanLaunchFixesTheState :
    State.CleanLaunch zeroImage ((boot []).applyReset.load zeroImage) ∧
      State.CleanLaunch zeroImage ((boot []).load zeroImage).applyReset ∧
      ((boot []).load zeroImage).applyReset.cfg.resetValues = decidedResetValues ∧
      (0o27 : Cell).toNat < 0o30 := ⟨⟨_, .inl rfl⟩, ⟨_, .inr rfl⟩, rfl, by decide⟩

theorem witness_LoadPlacesTheImageInTheProgramRegion : (0o27 : Cell).toNat < 0o30 := by decide

theorem witness_LoaderPortWritesOneCellUnfiltered :
    (0o22 : Cell) ≠ 0o21 ∧ (boot [0o30]).mem.wf = true := by decide

def pins (rst stepEn ldEn : Bool) : Pins := ⟨rst, stepEn, ldEn, 0o21, 0o77, 0o45⟩

/-- A faulted, a halted and a running machine. -/
theorem witness_ClockEdgeFollowsItsPriorities :
    (pins true true true).rst = true ∧
    ((pins false false true).rst = false ∧ (pins false false true).ldEn = true ∧
      (pins false false true).stepEn = false) ∧
    (pins false false false).ldEn = false ∧
    ({ boot [] with status := .fault ⟨.promWrite, 0, 0⟩ } : State).faulted = true ∧
    (boot [0o77]).halted = true ∧
    (boot [0o30]).halted = false ∧
    shows { boot [0o30] with inpQueue := [0o45, 0o45] } (fun t => t.status == .run) = true := by decide

/-- LOAD A,0o41; ROL A; JC 0o37; at 0o37 STOP: program P5 of 95_test_vectors.md, and its end state. -/
def programP5 : State :=
  { boot [0o01, 0o41, 0o24, 0o31, 0o37, 0o01, 0, 0o77] with inpQueue := [] }

theorem witness_HostRunIsCompletedStepsToAHalt :
    programP5.inpQueue = [] ∧ (hostRun [1, 2, 3, 4] programP5).1 = .halted ∧
      (hostRun [1, 2, 3, 4] programP5).2.1 = 3 ∧ (hostRun [1, 2, 3, 4] programP5).2.2.regA = 0o02 ∧
      (hostRun [1, 2, 3, 4] programP5).2.2.regF = 0o01 := by decide

/-- An instruction that completes, one that faults, and STOP. -/
theorem witness_StepRunsTheDecodedInstruction :
    (boot [0o13]).status = .run ∧
    decode (boot [0o13]).cfg [(boot [0o13]).read (boot [0o13]).regI, (boot [0o13]).read 0o31] =
      .ok (.dec ⟨0o13, .none, .reg .a, false, 0, .none⟩, [(boot [0o13]).read 0o31]) ∧
    (∃ t, exec (.dec ⟨0o13, .none, .reg .a, false, 0, .none⟩) (boot [0o13]) = .next t ∧ t.status = .run) ∧
    decode (boot [0o50]).cfg [(boot [0o50]).read (boot [0o50]).regI, (boot [0o50]).read 0o31] =
      .ok (.load ⟨0o50, .none, .reg .a, false, 0, .none⟩, [(boot [0o50]).read 0o31]) ∧
    (∃ t, exec (.load ⟨0o50, .none, .reg .a, false, 0, .none⟩) (boot [0o50]) = .next t ∧ t.status ≠ .run) ∧
    decode (boot [0o77]).cfg [(boot [0o77]).read (boot [0o77]).regI, (boot [0o77]).read 0o31] =
      .ok (.stop ⟨0o77, .none, .none, false, 0, .none⟩, [(boot [0o77]).read 0o31]) :=
  ⟨rfl, rfl, ⟨_, rfl, rfl⟩, rfl, ⟨_, rfl, by decide⟩, rfl⟩

theorem witness_HaltedMachineStaysAsItIs :
    (boot [0o77]).status = .run ∧ (boot [0o77]).read (boot [0o77]).regI = (boot [0o77]).cfg.stopOpcode := by
  decide

theorem witness_FaultEndsTheStepUntilReset :
    ∃ t, (boot [0o50]).status = .run ∧ step (boot [0o50]) = .next t ∧ t.status ≠ .run :=
  ⟨_, rfl, rfl, by decide⟩

def sourceless : Operands := ⟨0o50, .none, .reg .a, false, 0, .none⟩

def placeless : Operands := ⟨0o33, .reg .a, .none, false, 0, .none⟩

def intoProgram : Operands := ⟨0o04, .reg .a, .immInd, true, 0o30, .none⟩

/-- The test state under the policy `fault`. -/
def guarded : State := { boot [0o30] with cfg := { testConfig with promWritePolicy := .fault } }

theorem witness_EveryFaultHasACauseOfTheTable :
    (∃ t r, exec (.load sourceless) (boot []) = .next t ∧ t.status = .fault r ∧ r.cause = .undefinedSource) ∧
    (∃ t r, exec (.load placeless) (boot []) = .next t ∧ t.status = .fault r ∧ r.cause = .undefinedTarget) ∧
    (∃ t r, exec (.load intoProgram) guarded = .next t ∧ t.status = .fault r ∧ r.cause = .promWrite) :=
  ⟨⟨_, _, rfl, rfl, rfl⟩, ⟨_, _, rfl, rfl, rfl⟩, ⟨_, _, rfl, rfl, rfl⟩⟩

theorem booted_inv : (boot [0o30]).Inv :=
  ⟨by decide, by decide, fun _ => ⟨by decide, by decide, by decide, by decide⟩⟩

theorem witness_EveryStepKeepsTheInvariant : ∃ t, (boot [0o30]).Inv ∧ step (boot [0o30]) = .next t :=
  ⟨_, booted_inv, rfl⟩

theorem witness_EveryStepKeepsTheConfiguration :
    ∃ t, Host.Core.run Sys2Proof.core 1 (boot [0o30]) = .next t := ⟨_, rfl⟩

theorem booted_completes : ∃ t, CompletedSteps 1 (boot [0o30]) t :=
  ⟨_, .more ⟨by decide, rfl, by decide⟩ (.none _)⟩

theorem witness_TickerCountsCompletedSteps :
    (∃ t, CompletedSteps 1 (boot [0o30]) t) ∧ (boot [0o30]).Inv ∧ (boot [0o30]).status = .run :=
  ⟨booted_completes, booted_inv, rfl⟩

/-- At the first and at the last program cell. -/
theorem witness_ProgramRegionSurvivesCompletedSteps :
    (boot [0o30]).cfg.ioMap.wellFormed = true ∧ (∃ t, CompletedSteps 1 (boot [0o30]) t) ∧
      0o30 ≤ (0o30 : Cell).toNat ∧ 0o30 ≤ (0o77 : Cell).toNat :=
  ⟨by decide, booted_completes, by decide, by decide⟩

theorem witness_InputPinsChangeOnlyPort :
    (boot [0o30]).cfg.ioMap.wellFormed = true ∧
      (∃ t, step { boot [0o30] with inpQueue := [0] } = .next t ∧ t.status = .run) ∧
      (∃ u, step { boot [0o30] with inpQueue := [0o77] } = .next u) ∧ (0o20 : Cell) ≠ testConfig.ioMap.port :=
  ⟨by decide, ⟨_, rfl, rfl⟩, ⟨_, rfl⟩, by decide⟩

/-- One instruction of one cell and one of two. -/
theorem witness_DecodeOfEncodeIsTheInstruction :
    (Instr.dec ⟨0o13, .none, .reg .a, false, 0, .none⟩).wellFormed testConfig = true ∧
      (Instr.jmp ⟨0o16, .imm, .reg .i, true, 0o40, .none⟩).wellFormed testConfig = true := by decide

theorem witness_FetchedInstructionStandsAtI :
    (∃ i, (boot [0o13]).fetchDecode = .ok i ∧ i.operands.takesImmediate = false) ∧
      (∃ i, (boot [0o16, 0o40]).fetchDecode = .ok i ∧ i.operands.takesImmediate = true) :=
  ⟨⟨_, rfl, rfl⟩, ⟨_, rfl, rfl⟩⟩

theorem witness_PlacedWordIsWhatTheStepFetches :
    (∃ i rest, decode (boot []).cfg (cellsOfWord 12 0o4016) = .ok (i, rest)) ∧
      (0o32 : Cell) ≠ (boot []).regI ∧ (0o32 : Cell) ≠ (boot []).regI + 1 :=
  ⟨⟨_, _, rfl⟩, by decide, by decide⟩

theorem witness_CharacterSetRoundTrip : testConfig.charsetInjective = true := by decide

theorem witness_DecodeIsTotalOnAdmittedTables :
    testConfig.tableAdmitted = true ∧ (boot []).status = .run := by decide

/-- The machine about to run opcode 0o60, whose row is this. -/
def rowAt (r : OpcodeRecord) : State := { boot [0o60] with cfg := withRow 0o60 r }

def unlistedRow : OpcodeRecord := ⟨.unlisted "MUL", .listed .imm, .listed (.reg .a), true, .none⟩

/-- The machine about to run SUB, while classes the spec decides are refused. -/
def guardedClass : State := { boot [0o23, 0] with cfg := { testConfig with admitDecidedClasses := false } }

/-- A class outside the enumeration; a decided class refused; (W1) broken; (W2) broken. -/
theorem witness_UnadmittedRowsAreRefusedByName :
    ((rowAt unlistedRow).status = .run ∧ (rowAt unlistedRow).halted = false ∧
      ((rowAt unlistedRow).cfg.isa ((rowAt unlistedRow).read (rowAt unlistedRow).regI)).cls = .unlisted "MUL") ∧
    (guardedClass.status = .run ∧ guardedClass.halted = false ∧
      guardedClass.cfg.isa (guardedClass.read guardedClass.regI) = listedRow .sub .imm (.reg .a) true .none ∧
      OperationClass.status .sub = .decision ∧ guardedClass.cfg.admitDecidedClasses = false) ∧
    ((rowAt (listedRow .load .imm (.reg .a) false .none)).halted = false ∧
      (rowAt (listedRow .load .imm (.reg .a) false .none)).cfg.admits .load = true ∧
      immediateFetched .imm (.reg .a) false = false) ∧
    ((rowAt (listedRow .stop .none .none false .none)).halted = false ∧
      (rowAt (listedRow .stop .none .none false .none)).cfg.admits .stop = true ∧
      immediateFetched .none .none false = true) := by decide

/-- A row that is refused, and a row whose instruction faults. -/
theorem witness_NoFaultIsRaisedAtDecode :
    ((rowAt unlistedRow).status = .run ∧ (rowAt unlistedRow).halted = false ∧
      (rowAt unlistedRow).fetchDecode = .error (.classNotListed 0o60 "MUL")) ∧
    (∃ t, (boot [0o50]).status = .run ∧ step (boot [0o50]) = .next t ∧ t.status ≠ .run) :=
  ⟨⟨rfl, by decide, rfl⟩, _, rfl, rfl, by decide⟩

theorem witness_SourceModesReadTheirOperands :
    sourceless.source = .none ∧ placeless.source = .reg .a ∧
      (⟨0o21, .quick 3, .reg .a, false, 0, .none⟩ : Operands).source = .quick 3 ∧
      (⟨0o27, .flag .c, .reg .a, false, 0, .none⟩ : Operands).source = .flag .c := by decide

theorem witness_TargetModesNameTheirLocations :
    placeless.target = .none ∧ intoProgram.target = .immInd ∧ sourceless.target = .reg .a ∧
      (⟨0o27, .imm, .flag .c, true, 0, .none⟩ : Operands).target = .flag .c := by decide

/-- A jump-free effect that writes, with and without a base increment. -/
theorem witness_RegisterWritebackReplacesTheAdjustment :
    (copyWithFlags 5).write = some 5 ∧ (copyWithFlags 5).jump = none ∧ sourceless.sideEffect ≠ .postIncBase ∧
      (⟨0o45, .baseInd, .reg .b, false, 0, .postIncBase⟩ : Operands).sideEffect = .postIncBase ∧
      Reg.i ≠ .b ∧ Reg.i ≠ .f := by decide

theorem witness_FlagWriteSetsTheFlagsAndKeepsTheRest : decidedFlagMask.wellFormed = true := by decide

theorem witness_FlagTargetChangesOneFlag : decidedFlagMask.wellFormed = true ∧ Flag.m ≠ .c := by decide

theorem witness_OnlyFlagClassesOrFlagTargetsChangeF :
    ∃ t, writesFlags (Instr.push ⟨0o60, .imm, .reg .f, true, 7, .none⟩).cls = false ∧
      (boot []).status = .run ∧
      exec (.push ⟨0o60, .imm, .reg .f, true, 7, .none⟩) (boot []) = .next t ∧ t.status = .run ∧
      t.regF ≠ (boot []).regF :=
  ⟨_, rfl, rfl, rfl, rfl, by decide⟩

/-- The lowest cell, the cells beside PORT, and the highest cell below the program region. -/
theorem witness_FreeCellReadsBackWhatWasWritten :
    (∀ a ∈ ([0, 0o20, 0o22, 0o27] : List Cell), a.toNat < 0o30 ∧ a ≠ (boot []).cfg.ioMap.port) := by decide

theorem witness_WriteFilterGuardsPortAndProgram :
    (boot []).cfg.ioMap.port.toNat < 0o30 ∧ (0o20 : Cell) ≠ (boot []).cfg.ioMap.port ∧
      0o30 ≤ (0o30 : Cell).toNat ∧ (boot []).cfg.promWritePolicy = .ignore ∧
      guarded.cfg.promWritePolicy = .fault := by decide

theorem witness_TickPhaseRecomputesBothTickerCells :
    (boot []).cfg.ioMap.wellFormed = true ∧ (0o25 : Cell) ≠ (boot []).cfg.ioMap.tickFast ∧
      (0o25 : Cell) ≠ (boot []).cfg.ioMap.tickSlow := by decide

theorem witness_IoPassDrivesOutAndDisplay : (boot []).cfg.ioMap.wellFormed = true := by decide

/-- A supplied value, and none supplied. -/
theorem witness_InputMergeFillsTheInputPins :
    (boot []).cfg.ioMap.wellFormed = true ∧ (boot []).inpQueue = [0o45] ∧
      ({ boot [] with inpQueue := [] } : State).inpQueue = [] ∧ (0o20 : Cell) ≠ (boot []).cfg.ioMap.port := by
  decide

def loadImm : Operands := ⟨0o01, .imm, .reg .a, true, 5, .none⟩

def pushA : Operands := ⟨0o05, .reg .a, .stackInd, false, 0, .preDecStack⟩

def popA : Operands := ⟨0o10, .stackInd, .reg .a, false, 0, .postIncStack⟩

def jumpTo40 : Operands := ⟨0o16, .imm, .reg .i, true, 0o40, .none⟩

def callTo50 : Operands := ⟨0o17, .imm, .stackInd, true, 0o50, .preDecStack⟩

def returnToCaller : Operands := ⟨0o20, .stackInd, .reg .i, false, 0, .postIncStack⟩

def onA : Operands := ⟨0o13, .none, .reg .a, false, 0, .none⟩

/-- No source; a target that is no place; a program cell under `fault`; a form that completes. -/
theorem witness_LoadCopiesTheSourceWithItsFlags :
    sourceless.source = .none ∧
    (sourceValue placeless (boot []) = some 0 ∧ (targetLoc placeless (boot [])).readable = false) ∧
    (sourceValue intoProgram guarded = some 0 ∧ targetLoc intoProgram guarded = .mem 0o30 ∧
      0o30 ≤ (0o30 : Cell).toNat ∧ guarded.cfg.promWritePolicy = .fault) ∧
    (sourceValue loadImm (boot []) = some 5 ∧ (targetLoc loadImm (boot [])).writable (boot []).cfg = true) := by
  decide

/-- No source; a target that is no place; a program cell under `fault`; a form that completes. -/
theorem witness_PushStoresTheSourceAtTheNewTop :
    sourceless.source = .none ∧
    (sourceValue placeless (boot []) = some 0 ∧ (targetLoc placeless (boot [])).readable = false) ∧
    (sourceValue intoProgram guarded = some 0 ∧ targetLoc intoProgram guarded = .mem 0o30 ∧
      0o30 ≤ (0o30 : Cell).toNat ∧ guarded.cfg.promWritePolicy = .fault) ∧
    (sourceValue pushA (boot []) = some 0 ∧ (targetLoc pushA (boot [])).writable (boot []).cfg = true) ∧
    pushA.target = .stackInd ∧ pushA.sideEffect = .preDecStack ∧ ((boot []).regS - 1).toNat < 0o30 ∧
      keepsValue (boot []).cfg ((boot []).regS - 1) = true := by decide

/-- No source; a target that is no place; a program cell under `fault`; a form that completes. -/
theorem witness_PopMovesTheTopOfStackToTheTarget :
    sourceless.source = .none ∧
    (sourceValue placeless (boot []) = some 0 ∧ (targetLoc placeless (boot [])).readable = false) ∧
    (sourceValue intoProgram guarded = some 0 ∧ targetLoc intoProgram guarded = .mem 0o30 ∧
      0o30 ≤ (0o30 : Cell).toNat ∧ guarded.cfg.promWritePolicy = .fault) ∧
    (sourceValue popA (boot []) = some 0 ∧ (targetLoc popA (boot [])).writable (boot []).cfg = true) ∧
    popA.source = .stackInd ∧ popA.sideEffect = .postIncStack ∧ popA.target = .reg .a ∧ Reg.a ≠ .s := by decide

def pushB : Operands := ⟨0o06, .reg .b, .stackInd, false, 0, .preDecStack⟩

def popF : Operands := ⟨0o07, .stackInd, .reg .f, false, 0, .postIncStack⟩

/-- 0o10 in A and 0o22 in B: the stack test of 95_test_vectors.md S3. -/
def stacked : State := { boot [] with regA := 0o10, regB := 0o22, inpQueue := [1, 2, 3, 4] }

/-- Two pushes and two pops, and what they find. -/
theorem witness_PopsReturnPushedValuesInReverse :
    stacked.status = .run ∧ stacked.cfg.ioMap.wellFormed = true ∧
    (∀ i ∈ [Instr.push pushA, .push pushB], isPush i = true) ∧
    (∀ i ∈ [Instr.pop popF, .pop popA], isPop i = true) ∧ 2 ≤ stacked.regS.toNat ∧
    (∀ k < 2, keepsValue stacked.cfg (stacked.regS - 1 - BitVec.ofNat 6 k) = true) ∧
    sourceValues [.push pushA, .push pushB] stacked = some [0o10, 0o22] ∧
    sourceValues [.push pushA, .push pushB, .pop popF, .pop popA] stacked =
      some [0o10, 0o22, 0o22, 0o10] := by decide

def walkBase : Operands := ⟨0o03, .baseInd, .reg .a, false, 0, .postIncBase⟩

theorem witness_ThreeBaseIndexedLoadsWalkThreeCells :
    walkBase.source = .baseInd ∧ walkBase.target = .reg .a ∧ walkBase.sideEffect = .postIncBase ∧
    (boot []).status = .run ∧ (boot []).cfg.ioMap.wellFormed = true ∧
    (∀ k < 3, (boot []).regB + BitVec.ofNat 6 k ≠ (boot []).cfg.ioMap.port ∧
      (boot []).regB + BitVec.ofNat 6 k ≠ (boot []).cfg.ioMap.tickSlow ∧
      (boot []).regB + BitVec.ofNat 6 k ≠ (boot []).cfg.ioMap.tickFast) := by decide

/-- No source; a target that is no place; a program cell under `fault`; a form that completes. -/
theorem witness_AddAndSubCombineTargetAndSource :
    sourceless.source = .none ∧
    (sourceValue placeless (boot []) = some 0 ∧ (targetLoc placeless (boot [])).readable = false) ∧
    (sourceValue intoProgram guarded = some 0 ∧ targetLoc intoProgram guarded = .mem 0o30 ∧
      0o30 ≤ (0o30 : Cell).toNat ∧ guarded.cfg.promWritePolicy = .fault) ∧
    (sourceValue loadImm (boot []) = some 5 ∧ targetValue loadImm (boot []) = some 0 ∧
      (targetLoc loadImm (boot [])).writable (boot []).cfg = true) := by decide

/-- No source; a target that is no place; a program cell under `fault`; a form that completes. -/
theorem witness_LogicalClassesCombineTargetAndSource :
    sourceless.source = .none ∧
    (sourceValue placeless (boot []) = some 0 ∧ (targetLoc placeless (boot [])).readable = false) ∧
    (sourceValue intoProgram guarded = some 0 ∧ targetLoc intoProgram guarded = .mem 0o30 ∧
      0o30 ≤ (0o30 : Cell).toNat ∧ guarded.cfg.promWritePolicy = .fault) ∧
    (sourceValue loadImm (boot []) = some 5 ∧ targetValue loadImm (boot []) = some 0 ∧
      (targetLoc loadImm (boot [])).writable (boot []).cfg = true) := by decide

/-- A target that is no place; a program cell under `fault`; a form that completes. -/
theorem witness_NotIncDecActOnTheTarget :
    (targetLoc placeless (boot [])).readable = false ∧
    (targetLoc intoProgram guarded = .mem 0o30 ∧ 0o30 ≤ (0o30 : Cell).toNat ∧
      guarded.cfg.promWritePolicy = .fault) ∧
    (targetValue onA (boot []) = some 0 ∧ (targetLoc onA (boot [])).writable (boot []).cfg = true) := by decide

/-- A target that is no place; a program cell under `fault`; a form that completes. -/
theorem witness_RotatesGoThroughTheCarry :
    (targetLoc placeless (boot [])).readable = false ∧
    (targetLoc intoProgram guarded = .mem 0o30 ∧ 0o30 ≤ (0o30 : Cell).toNat ∧
      guarded.cfg.promWritePolicy = .fault) ∧
    (targetValue onA (boot []) = some 0 ∧ (targetLoc onA (boot [])).writable (boot []).cfg = true) := by decide

/-- No source; a target that is no place; a program cell under `fault`; a form that completes. -/
theorem witness_JmpWritesTheTarget :
    sourceless.source = .none ∧
    (sourceValue placeless (boot []) = some 0 ∧ (targetLoc placeless (boot [])).readable = false) ∧
    (sourceValue intoProgram guarded = some 0 ∧ targetLoc intoProgram guarded = .mem 0o30 ∧
      0o30 ≤ (0o30 : Cell).toNat ∧ guarded.cfg.promWritePolicy = .fault) ∧
    (sourceValue jumpTo40 (boot []) = some 0o40 ∧ (targetLoc jumpTo40 (boot [])).writable (boot []).cfg = true) ∧
    jumpTo40.target = .reg .i := by decide

/-- No source; a target that is no place; a program cell under `fault`; a form that completes. The flag clear, and set. -/
theorem witness_JzAndJnzJumpOnZero :
    sourceless.source = .none ∧
    (sourceValue placeless (boot []) = some 0 ∧ (targetLoc placeless (boot [])).readable = false) ∧
    (sourceValue intoProgram guarded = some 0 ∧ targetLoc intoProgram guarded = .mem 0o30 ∧
      0o30 ≤ (0o30 : Cell).toNat ∧ guarded.cfg.promWritePolicy = .fault) ∧
    (sourceValue jumpTo40 (boot []) = some 0o40 ∧ (targetLoc jumpTo40 (boot [])).writable (boot []).cfg = true) ∧
    ((boot []).regF &&& (boot []).cfg.flagMask.z = 0 ∧
      ({ boot [] with regF := 0o04 } : State).regF &&& (boot []).cfg.flagMask.z ≠ 0) := by decide

/-- No source; a target that is no place; a program cell under `fault`; a form that completes. The flag clear, and set. -/
theorem witness_JcAndJncJumpOnCarry :
    sourceless.source = .none ∧
    (sourceValue placeless (boot []) = some 0 ∧ (targetLoc placeless (boot [])).readable = false) ∧
    (sourceValue intoProgram guarded = some 0 ∧ targetLoc intoProgram guarded = .mem 0o30 ∧
      0o30 ≤ (0o30 : Cell).toNat ∧ guarded.cfg.promWritePolicy = .fault) ∧
    (sourceValue jumpTo40 (boot []) = some 0o40 ∧ (targetLoc jumpTo40 (boot [])).writable (boot []).cfg = true) ∧
    ((boot []).regF &&& (boot []).cfg.flagMask.c = 0 ∧
      ({ boot [] with regF := 0o01 } : State).regF &&& (boot []).cfg.flagMask.c ≠ 0) := by decide

/-- No source; a target that is no place; a program cell under `fault`; a form that completes. The flag clear, and set. -/
theorem witness_JmAndJnmJumpOnMinus :
    sourceless.source = .none ∧
    (sourceValue placeless (boot []) = some 0 ∧ (targetLoc placeless (boot [])).readable = false) ∧
    (sourceValue intoProgram guarded = some 0 ∧ targetLoc intoProgram guarded = .mem 0o30 ∧
      0o30 ≤ (0o30 : Cell).toNat ∧ guarded.cfg.promWritePolicy = .fault) ∧
    (sourceValue jumpTo40 (boot []) = some 0o40 ∧ (targetLoc jumpTo40 (boot [])).writable (boot []).cfg = true) ∧
    ((boot []).regF &&& (boot []).cfg.flagMask.m = 0 ∧
      ({ boot [] with regF := 0o02 } : State).regF &&& (boot []).cfg.flagMask.m ≠ 0) := by decide

/-- No source; a target that is no place; a program cell under `fault`; a form that completes. -/
theorem witness_CallPushesTheReturnAddressAndJumps :
    sourceless.source = .none ∧
    (sourceValue placeless (boot []) = some 0 ∧ (targetLoc placeless (boot [])).readable = false) ∧
    (sourceValue intoProgram guarded = some 0 ∧ targetLoc intoProgram guarded = .mem 0o30 ∧
      0o30 ≤ (0o30 : Cell).toNat ∧ guarded.cfg.promWritePolicy = .fault) ∧
    (sourceValue callTo50 (boot []) = some 0o50 ∧ (targetLoc callTo50 (boot [])).writable (boot []).cfg = true) := by
  decide

/-- No source; a target that is no place; a program cell under `fault`; a form that completes. -/
theorem witness_ReturnPopsTheReturnAddress :
    sourceless.source = .none ∧
    (sourceValue placeless (boot []) = some 0 ∧ (targetLoc placeless (boot [])).readable = false) ∧
    (sourceValue intoProgram guarded = some 0 ∧ targetLoc intoProgram guarded = .mem 0o30 ∧
      0o30 ≤ (0o30 : Cell).toNat ∧ guarded.cfg.promWritePolicy = .fault) ∧
    (sourceValue returnToCaller (boot []) = some 0 ∧ (targetLoc returnToCaller (boot [])).writable (boot []).cfg = true) ∧
    returnToCaller.source = .stackInd ∧ returnToCaller.target = .reg .i ∧
      returnToCaller.sideEffect = .postIncStack := by decide

theorem witness_ReturnAfterCallResumes :
    (boot []).status = .run ∧ (boot []).cfg.ioMap.wellFormed = true ∧ callTo50.target = .stackInd ∧
    callTo50.sideEffect = .preDecStack ∧ sourceValue callTo50 (boot []) = some 0o50 ∧
    returnToCaller.source = .stackInd ∧ returnToCaller.target = .reg .i ∧
    returnToCaller.sideEffect = .postIncStack ∧ keepsValue (boot []).cfg ((boot []).regS - 1) = true := by decide

end Sys2Proof.Tests
end

section
/-! The I/O pass: what its out and display actions leave in the latches (20_memory.md R83 to R85). -/

namespace Sys2Proof.Machine

/-- In a well-formed I/O map no two of the named cells are the same, so no display cell is PORT. -/
theorem disp_ne_port {io : IoMap} (h : io.wellFormed = true) :
    io.disp0 ≠ io.port ∧ io.disp1 ≠ io.port ∧ io.disp2 ≠ io.port ∧ io.disp3 ≠ io.port := by
  have hdistinct : io.addresses.Nodup := by
    simp only [IoMap.wellFormed, Bool.and_eq_true, decide_eq_true_eq] at h
    exact h.2
  simp only [IoMap.addresses, List.nodup_cons, List.mem_cons, not_or] at hdistinct
  obtain ⟨-, ⟨h0, h1, h2, h3, -⟩, -⟩ := hdistinct
  exact ⟨Ne.symm h0, Ne.symm h1, Ne.symm h2, Ne.symm h3⟩

/-- The input merge writes PORT alone. -/
theorem ioInput_read_of_ne_port {s : State} {a : Cell} (h : a ≠ s.cfg.ioMap.port) :
    s.ioInput.read a = s.read a := by
  rw [ioInput_read, if_neg h]

/-- The input merge does not reach the display cells. -/
theorem ioInput_displayCells {s : State} (h : s.cfg.ioMap.wellFormed = true) :
    s.ioInput.displayCells = s.displayCells := by
  obtain ⟨h0, h1, h2, h3⟩ := disp_ne_port h
  simp only [State.displayCells, ioInput_cfg, ioInput_read_of_ne_port h0, ioInput_read_of_ne_port h1,
    ioInput_read_of_ne_port h2, ioInput_read_of_ne_port h3]

/-- The out action changes no memory cell. -/
theorem ioOut_displayCells (s : State) : s.ioOut.displayCells = s.displayCells := rfl

/-- Settles O37: only the out action writes the out latch, and it runs before the merge; the display action
runs after the merge, which writes PORT alone, and PORT is no display cell. -/
theorem ioPassDrivesOutAndDisplay : Obligations.IoPassDrivesOutAndDisplay := by
  intro s hmap
  constructor
  · rw [ioDisplay_outLatch, ioInput_outLatch, ioOut_outLatch]
  · have hmap' : s.ioOut.cfg.ioMap.wellFormed = true := by rwa [ioOut_cfg]
    calc s.ioOut.ioInput.ioDisplay.display
        = s.ioOut.ioInput.displayCells := ioDisplay_display _
      _ = s.ioOut.displayCells := ioInput_displayCells hmap'
      _ = s.displayCells := ioOut_displayCells s

end Sys2Proof.Machine
end

section
/-! A fetched instruction against memory and the table: its cells stand at I, its record is the opcode's
(30_encoding.md R100). -/

namespace Sys2Proof.Machine

theorem encode_of_takesImmediate {i : Instr} (h : i.operands.takesImmediate = true) :
    encode i = [i.operands.opcode, i.operands.imm] := by
  rw [encode, if_pos h]

theorem encode_of_not_takesImmediate {i : Instr} (h : i.operands.takesImmediate = false) :
    encode i = [i.operands.opcode] := by
  rw [encode, h, if_neg Bool.false_ne_true]

/-- Either length starts with the opcode. -/
theorem encode_eq_opcode_cons (i : Instr) : ∃ tail, encode i = i.operands.opcode :: tail := by
  cases h : i.operands.takesImmediate with
  | true => exact ⟨_, encode_of_takesImmediate h⟩
  | false => exact ⟨_, encode_of_not_takesImmediate h⟩

theorem isa_opcode_of_wellFormed {cfg : Config} {i : Instr} (h : i.wellFormed cfg = true) :
    cfg.isa i.operands.opcode = i.record := by
  simp only [Instr.wellFormed, Bool.and_eq_true, beq_iff_eq] at h
  obtain ⟨⟨⟨⟨hrecord, -⟩, -⟩, -⟩, -⟩ := h
  exact hrecord

/-- A fetched instruction is well-formed, and its cells are the first of the two at I and I + 1. -/
theorem fetchDecode_cells {s : State} {i : Instr} (h : s.fetchDecode = .ok i) :
    i.wellFormed s.cfg = true ∧ ∃ rest, [s.read s.regI, s.read (s.regI + 1)] = encode i ++ rest := by
  obtain ⟨rest, hdecode⟩ := fetchDecode_ok h
  obtain ⟨hwf, hcells⟩ := decode_ok hdecode
  exact ⟨hwf, rest, hcells⟩

theorem fetchDecode_opcode {s : State} {i : Instr} (h : s.fetchDecode = .ok i) :
    i.operands.opcode = s.read s.regI := by
  obtain ⟨-, rest, hcells⟩ := fetchDecode_cells h
  obtain ⟨tail, htail⟩ := encode_eq_opcode_cons i
  rw [htail, List.cons_append] at hcells
  exact (List.cons.inj hcells).1.symm

theorem fetchDecode_takesImmediate {s : State} {i : Instr} (h : s.fetchDecode = .ok i) :
    i.operands.takesImmediate = (s.cfg.isa (s.read s.regI)).takesImmediate := by
  obtain ⟨hwf, -⟩ := fetchDecode_cells h
  rw [← fetchDecode_opcode h, isa_opcode_of_wellFormed hwf, Instr.record]

theorem fetchDecode_imm {s : State} {i : Instr} (h : s.fetchDecode = .ok i)
    (himm : i.operands.takesImmediate = true) : i.operands.imm = s.read (s.regI + 1) := by
  obtain ⟨-, rest, hcells⟩ := fetchDecode_cells h
  rw [encode_of_takesImmediate himm] at hcells
  exact (List.cons.inj (List.cons.inj hcells).2).1.symm

/-- Settles O20: decode hands back the front of the cells it was given and the record of their opcode, and a
fetch gives it the cells at I and I + 1. -/
theorem fetchedInstructionStandsAtI : Obligations.FetchedInstructionStandsAtI := by
  intro s i hfetch
  have hop := fetchDecode_opcode hfetch
  refine ⟨hop, fetchDecode_takesImmediate hfetch, fun htakes => ?_, fun hnone => ?_⟩
  · have himm := fetchDecode_imm hfetch htakes
    exact ⟨himm, by rw [encode_of_takesImmediate htakes, hop, himm]⟩
  · rw [encode_of_not_takesImmediate hnone, hop]

end Sys2Proof.Machine
end

section
/-! The halt of phase CHECK_STOP, and WRITEBACK to a register (40_step_fsm.md R142, R155). -/

namespace Sys2Proof.Machine

open Sys2Proof.Claims

theorem halted_iff {s : State} : s.halted = true ↔ s.status = .run ∧ s.read s.regI = s.cfg.stopOpcode := by
  rw [State.halted, Bool.and_eq_true, beq_iff_eq, beq_iff_eq]

/-- CHECK_STOP ends the step of a halted machine before any other phase. -/
theorem step_of_halted {s : State} (h : s.halted = true) : step s = .next s := by
  obtain ⟨hrun, -⟩ := halted_iff.mp h
  rcases step_cases hrun with ⟨-, hstep⟩ | ⟨hnot, -⟩ | ⟨hnot, -⟩ | ⟨hnot, -⟩
  · exact hstep
  all_goals exact Bool.noConfusion (h.symm.trans hnot)

theorem run_of_halted {s : State} (h : s.halted = true) (n : Nat) :
    Host.Core.run Sys2Proof.core n s = .next s := by
  induction n with
  | zero => rfl
  | succ n ih => rw [run_next n (step_of_halted h), ih]

/-- Settles O9: a state whose cell at I is STOP is its own successor, so a run of any length stays at it. -/
theorem haltedMachineStaysAsItIs : Obligations.HaltedMachineStaysAsItIs := by
  intro s n hrun hstop
  have hhalted : s.halted = true := halted_iff.mpr ⟨hrun, hstop⟩
  exact ⟨hhalted, run_of_halted hhalted n⟩

theorem putFlags_reg_of_ne_f (s : State) (b : Option FlagBits) {r : Reg} (h : r ≠ .f) :
    (s.putFlags b).reg r = s.reg r := by
  cases r with
  | f => exact absurd rfl h
  | a | b | i | s => simp only [State.reg, putFlags_regA, putFlags_regB, putFlags_regI, putFlags_regS]

theorem baseIncrement_reg_eq_baseBumped (s : State) (e : SideEffect) (r : Reg) :
    (s.baseIncrement e).reg r = baseBumped e r (s.reg r) := baseIncrement_reg s e r

/-- BASE_INC acts on B alone. -/
theorem baseBumped_of_ne_b (e : SideEffect) {r : Reg} (v : Cell) (h : r ≠ .b) : baseBumped e r v = v :=
  if_neg fun hb => h hb.1

theorem baseBumped_b (e : SideEffect) (v : Cell) :
    baseBumped e .b v = if e = .postIncBase then v + 1 else v := by
  simp only [baseBumped, true_and]

/-- The fetch after a completed step starts at the I that the step left. -/
theorem complete_fetchCells (s : State) :
    s.complete.fetchCells = [s.complete.read s.regI, s.complete.read (s.regI + 1)] := by
  rw [State.fetchCells, complete_regI]

/-- The state after a jumpless write of `v` to the register `r`: FLAGS, WRITEBACK, BASE_INC. -/
def regSettled (o : Operands) (e : Effect) (s : State) (r : Reg) (v : Cell) : State :=
  ((s.putFlags e.flags).setReg r v).baseIncrement o.sideEffect

theorem settle_reg {o : Operands} {e : Effect} (s : State) (r : Reg) {v : Cell} (hwrite : e.write = some v)
    (hjump : e.jump = none) : settle o (.reg r) e s = .ok (regSettled o e s r v) := by
  rw [settle, hwrite, hjump]
  rfl

/-- WRITEBACK stands between FLAGS and BASE_INC: it replaces what FLAGS left, and BASE_INC acts on what it wrote. -/
theorem regSettled_reg (o : Operands) (e : Effect) (s : State) (r : Reg) (v : Cell) (q : Reg) :
    (regSettled o e s r v).reg q =
      baseBumped o.sideEffect q (if r = q then v else (s.putFlags e.flags).reg q) := by
  rw [regSettled, baseIncrement_reg_eq_baseBumped, setReg_reg]

/-- The written register takes the value, with the base increment on B. -/
theorem regSettled_reg_same (o : Operands) (e : Effect) (s : State) (r : Reg) (v : Cell) :
    (regSettled o e s r v).reg r = baseBumped o.sideEffect r v := by
  rw [regSettled_reg, if_pos rfl]

theorem regSettled_reg_other (o : Operands) (e : Effect) (s : State) {r q : Reg} (v : Cell) (hr : q ≠ r)
    (hf : q ≠ .f) : (regSettled o e s r v).reg q = baseBumped o.sideEffect q (s.reg q) := by
  rw [regSettled_reg, if_neg hr.symm, putFlags_reg_of_ne_f s e.flags hf]

theorem regSettled_read (o : Operands) (e : Effect) (s : State) (r : Reg) (v a : Cell) :
    (regSettled o e s r v).read a = s.read a := by
  rw [regSettled, baseIncrement_read, setReg_read, putFlags_read]

/-- Settles O28: the write is the last phase before BASE_INC that sets the register, and BASE_INC sets B alone. -/
theorem registerWritebackReplacesTheAdjustment : Obligations.RegisterWritebackReplacesTheAdjustment := by
  intro o e s r v hwrite hjump
  have hwritten := regSettled_reg_same o e s r v
  refine ⟨regSettled o e s r v, settle_reg s r hwrite hjump, ?notB, ?ofB, ?ofI, ?others, ?memory⟩
  case notB =>
    intro hr
    rw [hwritten, baseBumped_of_ne_b o.sideEffect v hr]
  case ofB =>
    rintro rfl
    exact hwritten.trans (baseBumped_b o.sideEffect v)
  case ofI =>
    rintro rfl
    have hI : (regSettled o e s .i v).regI = v :=
      hwritten.trans (baseBumped_of_ne_b o.sideEffect v (by decide))
    rw [complete_fetchCells, hI]
  case others => exact fun q hr hf => regSettled_reg_other o e s v hr hf
  case memory => exact regSettled_read o e s r v

end Sys2Proof.Machine
end

section
/-! TICK and IO against the cells the core keeps up itself, the invariant they establish, and what holds along
runs (20_memory.md R82 to R86; 40_step_fsm.md R158, R159). -/

namespace Sys2Proof.Machine

theorem isProgram_iff {a : Cell} : isProgram a = true ↔ 0o30 ≤ a.toNat := decide_eq_true_iff

theorem isProgram_eq_false_iff {a : Cell} : isProgram a = false ↔ a.toNat < 0o30 := by
  rw [← Bool.not_eq_true, isProgram_iff, Nat.not_le]

/-- In a well-formed I/O map the cells that TICK and IO write, and DIR, are different cells. -/
theorem ioMap_distinct {io : IoMap} (h : io.wellFormed = true) :
    io.dir ≠ io.port ∧ io.port ≠ io.tickSlow ∧ io.port ≠ io.tickFast ∧ io.tickSlow ≠ io.tickFast := by
  have hdistinct : io.addresses.Nodup := by
    simp only [IoMap.wellFormed, Bool.and_eq_true, decide_eq_true_eq] at h
    exact h.2
  simp only [IoMap.addresses, List.nodup_cons, List.mem_cons, not_or] at hdistinct
  obtain ⟨⟨hdp, -⟩, ⟨-, -, -, -, hps, hpf, -⟩, -, -, -, -, ⟨hsf, -⟩, -⟩ := hdistinct
  exact ⟨hdp, hps, hpf, hsf⟩

/-- The cells that TICK and IO write lie below the program region. -/
theorem ioMap_not_program {io : IoMap} (h : io.wellFormed = true) :
    isProgram io.port = false ∧ isProgram io.tickSlow = false ∧ isProgram io.tickFast = false := by
  have hregion : ∀ a ∈ io.addresses, isProgram a = false := by
    intro a ha
    simp only [IoMap.wellFormed, Bool.and_eq_true, List.all_eq_true] at h
    have hbelow := (h.1 a ha).2
    exact isProgram_eq_false_iff.mpr (of_decide_eq_true hbelow)
  exact ⟨hregion _ (by simp [IoMap.addresses]), hregion _ (by simp [IoMap.addresses]),
    hregion _ (by simp [IoMap.addresses])⟩

/-- Phase TICK leaves the fast cell showing the new t. -/
theorem tickPhase_read_tickFast {s : State} (h : s.cfg.ioMap.wellFormed = true) :
    s.tickPhase.read s.cfg.ioMap.tickFast = fastOf (s.tick + 1) := by
  obtain ⟨-, -, -, hsf⟩ := ioMap_distinct h
  rw [tickPhase_read, if_neg hsf.symm, if_pos rfl]

theorem tickPhase_read_tickSlow (s : State) :
    s.tickPhase.read s.cfg.ioMap.tickSlow = slowOf (s.tick + 1) := by
  rw [tickPhase_read, if_pos rfl]

theorem tickPhase_read_other {s : State} {a : Cell} (hf : a ≠ s.cfg.ioMap.tickFast)
    (hs : a ≠ s.cfg.ioMap.tickSlow) : s.tickPhase.read a = s.read a := by
  rw [tickPhase_read, if_neg hs, if_neg hf]

@[simp] theorem tickPhase_reg (s : State) (r : Reg) : s.tickPhase.reg r = s.reg r := by cases r <;> rfl
@[simp] theorem ioInput_reg (s : State) (r : Reg) : s.ioInput.reg r = s.reg r := by
  cases r <;> simp [State.reg]
@[simp] theorem ioOut_reg (s : State) (r : Reg) : s.ioOut.reg r = s.reg r := by cases r <;> rfl
@[simp] theorem ioDisplay_reg (s : State) (r : Reg) : s.ioDisplay.reg r = s.reg r := by cases r <;> rfl

theorem tick_add_one_toNat (t : Tick) : (t + 1).toNat = (t.toNat + 1) % 32768 := by
  rw [BitVec.toNat_add]; rfl

theorem fastOf_toNat (t : Tick) : (fastOf t).toNat = t.toNat / 8 % 64 := by
  simp [fastOf, Nat.shiftRight_eq_div_pow]

/-- t has 15 bits, so nothing is cut off the slow cell. -/
theorem slowOf_toNat (t : Tick) : (slowOf t).toNat = t.toNat / 512 := by
  have hlt := t.isLt
  simp only [slowOf, BitVec.toNat_setWidth, BitVec.toNat_ushiftRight, Nat.shiftRight_eq_div_pow]
  omega

/-- Settles O36: the tick phase writes two different cells, the slow one last, and no register. -/
theorem tickPhaseRecomputesBothTickerCells : Obligations.TickPhaseRecomputesBothTickerCells := by
  intro s hmap
  refine ⟨tick_add_one_toNat s.tick, ?fast, ?slow, fun a hf hs => tickPhase_read_other hf hs, tickPhase_reg s⟩
  case fast => rw [tickPhase_read_tickFast hmap, fastOf_toNat, tick_add_one_toNat]
  case slow => rw [tickPhase_read_tickSlow, slowOf_toNat, tick_add_one_toNat]

/-- The merge takes PORT where DIR is 1 and the pins where it is 0. -/
theorem portMerged_getLsbD (port dir i : Cell) {k : Nat} (hk : k < 6) :
    (portMerged port dir i).getLsbD k = if dir.getLsbD k then port.getLsbD k else i.getLsbD k := by
  simp only [portMerged, BitVec.getLsbD_or, BitVec.getLsbD_and, BitVec.getLsbD_not, hk, decide_true,
    Bool.true_and]
  cases dir.getLsbD k <;> simp

/-- The output bits are the ones the merge keeps. -/
theorem portMerged_and_dir (port dir i : Cell) : portMerged port dir i &&& dir = port &&& dir := by
  apply BitVec.eq_of_getLsbD_eq
  intro k hk
  rw [BitVec.getLsbD_and, BitVec.getLsbD_and, portMerged_getLsbD _ _ _ hk]
  cases dir.getLsbD k <;> simp

/-- The value drawn is the supplied one where there is one, and the free draw where there is none. -/
theorem inpValue_eq_of {s : State} {v : Cell}
    (h : (∃ q, s.inpQueue = v :: q) ∨ (s.inpQueue = [] ∧ v = Config.inpStub s.draws)) : s.inpValue = v := by
  rcases h with ⟨q, hq⟩ | ⟨hq, rfl⟩ <;> simp only [State.inpValue, hq]

/-- Out and display draw nothing. -/
theorem ioOut_inpValue (s : State) : s.ioOut.inpValue = s.inpValue := rfl

/-- Settles O38: of the three actions only the merge writes memory, and it writes PORT alone. -/
theorem inputMergeFillsTheInputPins : Obligations.InputMergeFillsTheInputPins := by
  intro s v _
  refine ⟨fun q hq => ?queue, fun hv k hk => ?port, fun a ha => ?others, fun r => ?registers⟩
  case queue => rw [ioDisplay_inpQueue, ioInput_inpQueue, ioOut_inpQueue, hq, List.tail_cons]
  case port =>
    have hmerged : s.ioOut.ioInput.ioDisplay.read s.cfg.ioMap.port =
        portMerged (s.read s.cfg.ioMap.port) (s.read s.cfg.ioMap.dir) s.inpValue := by
      rw [ioDisplay_read, ioInput_read, ioOut_cfg, if_pos rfl, ioOut_inpValue, ioOut_read, ioOut_read]
    rw [hmerged, portMerged_getLsbD _ _ _ hk, inpValue_eq_of hv]
  case others =>
    rw [ioDisplay_read, ioInput_read_of_ne_port (by rwa [ioOut_cfg]), ioOut_read]
  case registers => rw [ioDisplay_reg, ioInput_reg, ioOut_reg]

/-! The invariant. -/

/-- The out latch takes PORT under DIR as they stand after TICK, before the merge. -/
theorem complete_outLatch (s : State) :
    s.complete.outLatch = s.tickPhase.read s.cfg.ioMap.port &&& s.tickPhase.read s.cfg.ioMap.dir := by
  rw [State.complete, ioDisplay_outLatch, ioInput_outLatch, ioOut_outLatch, tickPhase_cfg]

/-- The display latch takes the display cells as they stand after TICK: the merge does not reach them. -/
theorem complete_display {s : State} (h : s.cfg.ioMap.wellFormed = true) :
    s.complete.display = s.tickPhase.displayCells := by
  rw [State.complete, ioDisplay_display, ioInput_displayCells (s := s.tickPhase.ioOut) h, ioOut_displayCells]

/-- After the tick phase the I/O pass writes PORT alone. -/
theorem complete_read_of_ne_port {s : State} {a : Cell} (h : a ≠ s.cfg.ioMap.port) :
    s.complete.read a = s.tickPhase.read a := by
  rw [complete_read, if_neg h, tickPhase_read]

/-- TICK and IO leave the cells the core keeps up coherent, whatever the instruction wrote. -/
theorem complete_coherent {s : State} (h : s.cfg.ioMap.wellFormed = true) : s.complete.Coherent := by
  obtain ⟨hdp, hps, hpf, -⟩ := ioMap_distinct h
  refine ⟨?fast, ?slow, ?out, ?display⟩
  case fast =>
    rw [complete_cfg, complete_tick, complete_read_of_ne_port hpf.symm, tickPhase_read_tickFast h]
  case slow =>
    rw [complete_cfg, complete_tick, complete_read_of_ne_port hps.symm, tickPhase_read_tickSlow]
  case out =>
    have hport : s.complete.read s.cfg.ioMap.port = portMerged (s.tickPhase.read s.cfg.ioMap.port)
        (s.tickPhase.read s.cfg.ioMap.dir) s.inpValue := by
      rw [complete_read, if_pos rfl]
    rw [complete_cfg, complete_outLatch, hport, complete_read_of_ne_port hdp, portMerged_and_dir]
  case display => rfl

/-- The states a step in status RUN can lead to: the same one, a completed one, a faulted one. -/
theorem step_next_cases {s t : State} (h : step s = .next t) :
    s.status = .run ∧
      (s.halted = true ∧ t = s ∨
        s.halted = false ∧ (∃ i u, s.fetchDecode = .ok i ∧ phasesOf i s = .ok u ∧ PhasesKeep s u ∧
          t = u.complete) ∨
        s.halted = false ∧ ∃ i c, s.fetchDecode = .ok i ∧ phasesOf i s = .error c ∧
          t = s.takeFault c i.operands.opcode s.regI) := by
  cases hs : s.status with
  | fault r => rw [step_fault hs] at h; cases h
  | run =>
    refine ⟨rfl, ?_⟩
    rcases step_cases hs with ⟨hh, hstep⟩ | ⟨-, why, -, hstep⟩ | ⟨hh, i, u, hf, hp, hk, hstep⟩ |
      ⟨hh, i, c, hf, hp, hstep⟩ <;> rw [hstep] at h <;> cases h
    · exact .inl ⟨hh, rfl⟩
    · exact .inr (.inl ⟨hh, i, u, hf, hp, hk, rfl⟩)
    · exact .inr (.inr ⟨hh, i, c, hf, hp, rfl⟩)

theorem PhasesKeep.cfg {s u : State} (h : PhasesKeep s u) : u.cfg = s.cfg := by
  obtain ⟨-, -, -, -, -, -, hcfg⟩ := h.rest
  exact hcfg

theorem PhasesKeep.status {s u : State} (h : PhasesKeep s u) : u.status = s.status := by
  obtain ⟨-, hstatus, -⟩ := h.rest
  exact hstatus

theorem PhasesKeep.tick {s u : State} (h : PhasesKeep s u) : u.tick = s.tick := by
  obtain ⟨htick, -⟩ := h.rest
  exact htick

/-- Settles O14: a halted step changes nothing; a completed one ends in TICK and IO, which make the cells
coherent; a faulted one leaves a memory in canonical form. -/
theorem everyStepKeepsTheInvariant : Obligations.EveryStepKeepsTheInvariant := by
  rintro s t ⟨hmap, hwf, hcoherent⟩ hstep
  obtain ⟨-, ⟨-, rfl⟩ | ⟨-, i, u, -, -, hkeep, rfl⟩ | ⟨-, i, c, -, -, rfl⟩⟩ := step_next_cases hstep
  case inl => exact ⟨hmap, hwf, hcoherent⟩
  case inr.inl =>
    have humap : u.cfg.ioMap.wellFormed = true := by rwa [hkeep.cfg]
    exact ⟨by rwa [complete_cfg], complete_wf (hkeep.wf hwf), fun _ => complete_coherent humap⟩
  case inr.inr =>
    refine ⟨by rwa [takeFault_cfg], by rw [takeFault_mem]; exact filled_wf _, fun hrun => ?_⟩
    rw [takeFault_status] at hrun
    cases hrun

/-- Settles O13: nothing is listed, so every cell below the program region reads 0, as t and the latches are. -/
theorem resetStateMeetsTheInvariant : Obligations.ResetStateMeetsTheInvariant :=
  ⟨by decide, nil_wf, fun _ => ⟨by decide, by decide, by decide, by decide⟩⟩

/-! Along runs. -/

theorem step_keeps_cfg {s t : State} (h : step s = .next t) : t.cfg = s.cfg := by
  obtain ⟨-, ⟨-, rfl⟩ | ⟨-, i, u, -, -, hkeep, rfl⟩ | ⟨-, i, c, -, -, rfl⟩⟩ := step_next_cases h
  · rfl
  · rw [complete_cfg, hkeep.cfg]
  · rw [takeFault_cfg]

/-- Settles O15, by induction on the number of steps. -/
theorem everyStepKeepsTheConfiguration : Obligations.EveryStepKeepsTheConfiguration := by
  intro n
  induction n with
  | zero =>
    intro s t hrun
    cases hrun
    rfl
  | succ n ih =>
    intro s t hrun
    cases hstep : step s with
    | next u =>
      rw [run_next n hstep] at hrun
      exact (ih u t hrun).trans (step_keeps_cfg hstep)
    | fault r => rw [run_fault n hstep] at hrun; cases hrun
    | refused r => rw [run_refused n hstep] at hrun; cases hrun

theorem completedStep_tick {s t : State} (h : CompletedStep s t) : t.tick = s.tick + 1 := by
  obtain ⟨-, -, i, u, -, -, hkeep, rfl⟩ := completedStep_cases h
  rw [complete_tick, hkeep.tick]

theorem completedSteps_tick {n : Nat} {s t : State} (h : CompletedSteps n s t) :
    t.tick = s.tick + BitVec.ofNat 15 n := by
  induction h with
  | none s => simp
  | @more n s t u hstep _ ih =>
    rw [ih, completedStep_tick hstep, BitVec.add_assoc, BitVec.add_comm 1, BitVec.ofNat_add]
    rfl

/-- The invariant, and status RUN, hold along completed steps. -/
theorem completedSteps_inv {n : Nat} {s t : State} (h : CompletedSteps n s t) (hinv : s.Inv)
    (hrun : s.status = .run) : t.Inv ∧ t.status = .run := by
  induction h with
  | none s => exact ⟨hinv, hrun⟩
  | more hstep _ ih =>
    obtain ⟨-, hnext, hrun'⟩ := hstep
    exact ih (everyStepKeepsTheInvariant _ _ hinv hnext) hrun'

/-- Settles O16: each completed step adds 1 to t, and the invariant ties the ticker cells to t. -/
theorem tickerCountsCompletedSteps : Obligations.TickerCountsCompletedSteps := by
  intro n s t hsteps
  have htick := completedSteps_tick hsteps
  refine ⟨htick, fun hinv hrun => ?_⟩
  obtain ⟨⟨-, -, hcoherent⟩, hrun'⟩ := completedSteps_inv hsteps hinv hrun
  obtain ⟨hfast, hslow, -⟩ := hcoherent hrun'
  have hcount : t.tick.toNat = (s.tick.toNat + n) % 32768 := by
    rw [htick, BitVec.toNat_add, BitVec.toNat_ofNat, Nat.add_mod_mod]
  rw [hfast, hslow, fastOf_toNat, slowOf_toNat, hcount]
  exact ⟨rfl, rfl⟩

theorem not_program_ne {a b : Cell} (ha : isProgram a = true) (hb : isProgram b = false) : a ≠ b := by
  rintro rfl
  exact Bool.noConfusion (ha.symm.trans hb)

/-- TICK and IO write I/O cells only. -/
theorem complete_read_program {s : State} (h : s.cfg.ioMap.wellFormed = true) {a : Cell}
    (ha : isProgram a = true) : s.complete.read a = s.read a := by
  obtain ⟨hport, hslow, hfast⟩ := ioMap_not_program h
  rw [complete_read, if_neg (not_program_ne ha hport), if_neg (not_program_ne ha hslow),
    if_neg (not_program_ne ha hfast)]

theorem completedStep_cfg {s t : State} (h : CompletedStep s t) : t.cfg = s.cfg := by
  obtain ⟨-, hnext, -⟩ := h
  exact step_keeps_cfg hnext

theorem completedStep_program {s t : State} (hmap : s.cfg.ioMap.wellFormed = true) (h : CompletedStep s t)
    {a : Cell} (ha : isProgram a = true) : t.read a = s.read a := by
  obtain ⟨-, -, i, u, -, -, hkeep, rfl⟩ := completedStep_cases h
  rw [complete_read_program (by rwa [hkeep.cfg]) ha, hkeep.program a ha]

/-- Settles O17: the write filter keeps program cells from the instruction, and the I/O map keeps them from
TICK and IO, at each completed step. -/
theorem programRegionSurvivesCompletedSteps : Obligations.ProgramRegionSurvivesCompletedSteps := by
  intro n s t hmap hsteps a ha
  induction hsteps with
  | none s => rfl
  | more hstep _ ih =>
    rw [ih (by rwa [completedStep_cfg hstep]), completedStep_program hmap hstep (isProgram_iff.mpr ha)]

end Sys2Proof.Machine
end

section
/-! Decode both ways: an instruction from its own cells, every row of a table, and a step that is refused
(30_encoding.md R100, R106, R107, R110). -/

namespace Sys2Proof.Machine

/-- A row whose names are listed decodes by its fields. -/
theorem decode_listed {cfg : Config} {op : Cell} {c : OperationClass} {src tgt : Mode} (cells : List Cell)
    (hc : (cfg.isa op).cls = .listed c) (hs : (cfg.isa op).source = .listed src)
    (ht : (cfg.isa op).target = .listed tgt) :
    decode cfg (op :: cells) = decodeRow cfg op c src tgt cells := by
  rw [decode, hc, hs, ht]

/-- The instruction of an opcode whose row is listed, with its immediate. -/
def rowInstr (cfg : Config) (op : Cell) (c : OperationClass) (src tgt : Mode) (v : Cell) : Instr :=
  Instr.ofClass c
    { opcode := op, source := src, target := tgt, takesImmediate := (cfg.isa op).takesImmediate, imm := v,
      sideEffect := (cfg.isa op).sideEffect }

/-- What a row is admitted by, beside its listed names (30_encoding.md R107, R110). -/
structure RowSound (cfg : Config) (op : Cell) (c : OperationClass) (src tgt : Mode) : Prop where
  admitted : cfg.admits c = true
  fetched : immediateFetched src tgt (cfg.isa op).takesImmediate = true
  stop : cfg.stopAgrees op c = true

theorem decodeRow_sound {cfg : Config} {op : Cell} {c : OperationClass} {src tgt : Mode} {cells rest : List Cell}
    {v : Cell} (h : RowSound cfg op c src tgt)
    (himm : takeImmediate (cfg.isa op).takesImmediate cells = .ok (v, rest)) :
    decodeRow cfg op c src tgt cells = .ok (rowInstr cfg op c src tgt v, rest) := by
  rw [decodeRow, h.admitted, h.fetched, h.stop, himm]
  rfl

theorem takeImmediate_true (v : Cell) (rest : List Cell) :
    takeImmediate true (v :: rest) = .ok (v, rest) := rfl

theorem takeImmediate_false (cells : List Cell) : takeImmediate false cells = .ok (0, cells) := rfl

/-- A well-formed instruction's row: its own record, sound, and 0 for an immediate it does not fetch. -/
theorem wellFormed_row {cfg : Config} {i : Instr} (h : i.wellFormed cfg = true) :
    cfg.isa i.operands.opcode = i.record ∧
      RowSound cfg i.operands.opcode i.cls i.operands.source i.operands.target ∧
      (i.operands.takesImmediate = false → i.operands.imm = 0) := by
  have hrecord := isa_opcode_of_wellFormed h
  simp only [Instr.wellFormed, Bool.and_eq_true, Bool.or_eq_true, beq_iff_eq] at h
  obtain ⟨⟨⟨⟨-, hadmits⟩, hfetched⟩, hstop⟩, himm⟩ := h
  refine ⟨hrecord, ⟨hadmits, by rwa [hrecord], hstop⟩, fun hno => ?_⟩
  rcases himm with hyes | hzero
  · rw [hno] at hyes; cases hyes
  · exact hzero

/-- The row of an instruction under its own record gives the instruction back. -/
theorem rowInstr_of_record {cfg : Config} {i : Instr} (h : cfg.isa i.operands.opcode = i.record) :
    rowInstr cfg i.operands.opcode i.cls i.operands.source i.operands.target i.operands.imm = i := by
  rw [rowInstr, h]
  exact ofClass_eta i

/-- Settles O19: the opcode's row is the instruction's own record, so its fields come back; the immediate comes
back from the second cell, or is 0 where there is none. -/
theorem decodeOfEncodeIsTheInstruction : Obligations.DecodeOfEncodeIsTheInstruction := by
  intro cfg i rest hwf
  obtain ⟨hrecord, hsound, hzero⟩ := wellFormed_row hwf
  have hrow : ∀ cells,
      takeImmediate (cfg.isa i.operands.opcode).takesImmediate cells = .ok (i.operands.imm, rest) →
      decode cfg (i.operands.opcode :: cells) = .ok (i, rest) := by
    intro cells himm
    rw [decode_listed cells (c := i.cls) (src := i.operands.source) (tgt := i.operands.target)
        (by rw [hrecord]; rfl) (by rw [hrecord]; rfl) (by rw [hrecord]; rfl),
      decodeRow_sound hsound himm, rowInstr_of_record hrecord]
  have htakes : (cfg.isa i.operands.opcode).takesImmediate = i.operands.takesImmediate := by
    rw [hrecord]; rfl
  cases hi : i.operands.takesImmediate with
  | true =>
    rw [encode_of_takesImmediate hi]
    exact hrow (i.operands.imm :: rest) (by rw [htakes, hi, takeImmediate_true])
  | false =>
    rw [encode_of_not_takesImmediate hi]
    exact hrow rest (by rw [htakes, hi, takeImmediate_false, hzero hi])

/-- An admitted row: listed names, and sound. -/
theorem rowAdmitted_listed {cfg : Config} {op : Cell} (h : cfg.rowAdmitted op = true) :
    ∃ c src tgt, (cfg.isa op).cls = .listed c ∧ (cfg.isa op).source = .listed src ∧
      (cfg.isa op).target = .listed tgt ∧ RowSound cfg op c src tgt := by
  unfold Config.rowAdmitted at h
  split at h
  · rename_i c src tgt hc hs ht
    simp only [Bool.and_eq_true] at h
    obtain ⟨⟨hadmits, hfetched⟩, hstop⟩ := h
    exact ⟨c, src, tgt, hc, hs, ht, hadmits, hfetched, hstop⟩
  · cases h

theorem tableAdmitted_row {cfg : Config} (h : cfg.tableAdmitted = true) (op : Cell) :
    cfg.rowAdmitted op = true := by
  rw [Config.tableAdmitted, List.all_eq_true] at h
  simpa using h op.toNat (List.mem_range.mpr op.isLt)

/-- A cell after the opcode is enough for the immediate. -/
theorem takeImmediate_one (takes : Bool) (v : Cell) : ∃ w rest, takeImmediate takes [v] = .ok (w, rest) := by
  cases takes with
  | true => exact ⟨v, [], rfl⟩
  | false => exact ⟨0, [v], rfl⟩

theorem rowInstr_operands_opcode (cfg : Config) (op : Cell) (c : OperationClass) (src tgt : Mode) (v : Cell) :
    (rowInstr cfg op c src tgt v).operands.opcode = op := by
  rw [rowInstr, ofClass_operands]

/-- Settles O23: an admitted row passes every check of the decoder; and the fault outcome is answered in status
FAULT alone. -/
theorem decodeIsTotalOnAdmittedTables : Obligations.DecodeIsTotalOnAdmittedTables := by
  constructor
  · intro cfg op v htable
    obtain ⟨c, src, tgt, hc, hs, ht, hsound⟩ := rowAdmitted_listed (tableAdmitted_row htable op)
    obtain ⟨w, rest, himm⟩ := takeImmediate_one (cfg.isa op).takesImmediate v
    have hdecode : decode cfg [op, v] = .ok (rowInstr cfg op c src tgt w, rest) := by
      rw [decode_listed [v] hc hs ht, decodeRow_sound hsound himm]
    obtain ⟨hwf, -⟩ := decode_ok hdecode
    have hop := rowInstr_operands_opcode cfg op c src tgt w
    exact ⟨_, rest, hdecode, hop, by simpa only [hop] using isa_opcode_of_wellFormed hwf⟩
  · intro s f hrun hfault
    rcases step_cases hrun with ⟨-, h⟩ | ⟨-, why, -, h⟩ | ⟨-, i, t, -, -, -, h⟩ | ⟨-, i, c, -, -, h⟩ <;>
      rw [h] at hfault <;> cases hfault

/-- A step whose fetch does not decode is refused under the decoder's name. -/
theorem step_of_fetchDecode_error {s : State} {why : DecodeRefusal} (hrun : s.status = .run)
    (hgoing : s.halted = false) (h : s.fetchDecode = .error why) : step s = .refused (.undecodable why) := by
  rw [step, hrun, hgoing, h]
  rfl

/-- Settles O57: of the ways a step from RUN ends, only a decoded instruction's own fault leaves RUN. -/
theorem noFaultIsRaisedAtDecode : Obligations.NoFaultIsRaisedAtDecode := by
  intro s hrun
  refine ⟨fun why hgoing hbad => step_of_fetchDecode_error hrun hgoing hbad, fun t hstep hleft => ?_⟩
  obtain ⟨-, ⟨-, rfl⟩ | ⟨-, i, u, -, -, hkeep, rfl⟩ | ⟨-, i, c, hfetch, hphases, rfl⟩⟩ := step_next_cases hstep
  · exact absurd hrun hleft
  · exact absurd ((complete_status u).trans (hkeep.status.trans hrun)) hleft
  · exact ⟨i, hfetch, by rw [exec_eq, hphases, conclude_error]⟩

theorem fetchDecode_error_of_decode {s : State} {why : DecodeRefusal}
    (h : decode s.cfg [s.read s.regI, s.read (s.regI + 1)] = .error why) : s.fetchDecode = .error why := by
  rw [State.fetchDecode, State.fetchCells, h]

theorem fetchDecode_of_decode {s : State} {i : Instr} {rest : List Cell}
    (h : decode s.cfg s.fetchCells = .ok (i, rest)) : s.fetchDecode = .ok i := by
  rw [State.fetchDecode, h]

theorem decode_unlisted_class {cfg : Config} {op : Cell} {name : String} (cells : List Cell)
    (h : (cfg.isa op).cls = .unlisted name) : decode cfg (op :: cells) = .error (.classNotListed op name) := by
  rw [decode, h]

theorem decodeRow_not_admitted {cfg : Config} {c : OperationClass} (op : Cell) (src tgt : Mode)
    (cells : List Cell) (h : cfg.admits c = false) :
    decodeRow cfg op c src tgt cells = .error (.classNotAdmitted op c) := by
  rw [decodeRow, h]
  rfl

theorem decodeRow_not_fetched {cfg : Config} {op : Cell} {c : OperationClass} {src tgt : Mode}
    (cells : List Cell) (ha : cfg.admits c = true)
    (h : immediateFetched src tgt (cfg.isa op).takesImmediate = false) :
    decodeRow cfg op c src tgt cells = .error (.immediateNotFetched op) := by
  rw [decodeRow, ha, h]
  rfl

theorem decodeRow_stop_disagrees {cfg : Config} {op : Cell} {c : OperationClass} {src tgt : Mode}
    (cells : List Cell) (ha : cfg.admits c = true)
    (hf : immediateFetched src tgt (cfg.isa op).takesImmediate = true) (h : cfg.stopAgrees op c = false) :
    decodeRow cfg op c src tgt cells = .error (.stopDisagrees op) := by
  rw [decodeRow, ha, hf, h]
  rfl

/-- A decided class is refused while those are. -/
theorem admits_eq_false {cfg : Config} {c : OperationClass} (hc : c.status = .decision)
    (h : cfg.admitDecidedClasses = false) : cfg.admits c = false := by
  rw [Config.admits, h, hc]
  rfl

/-- A running machine does not stand at the STOP opcode. -/
theorem opcode_ne_stop {s : State} (hrun : s.status = .run) (hgoing : s.halted = false) :
    s.read s.regI ≠ s.cfg.stopOpcode := fun h =>
  Bool.noConfusion (hgoing.symm.trans (halted_iff.mpr ⟨hrun, h⟩))

theorem stopAgrees_stop_of_ne {cfg : Config} {op : Cell} (h : op ≠ cfg.stopOpcode) :
    cfg.stopAgrees op .stop = false := by
  rw [Config.stopAgrees, beq_false_of_ne h]
  rfl

/-- Settles O24: each kind of row fails the first check of the decoder that it breaks. -/
theorem unadmittedRowsAreRefusedByName : Obligations.UnadmittedRowsAreRefusedByName := by
  intro s hrun hgoing
  have hrefused : ∀ why, decode s.cfg [s.read s.regI, s.read (s.regI + 1)] = .error why →
      step s = .refused (.undecodable why) := fun why h =>
    step_of_fetchDecode_error hrun hgoing (fetchDecode_error_of_decode h)
  refine ⟨fun name hname => hrefused _ (decode_unlisted_class _ hname), fun c src tgt hc hs ht => ?_⟩
  have hrow := decode_listed [s.read (s.regI + 1)] hc hs ht
  refine ⟨fun hdecided hpolicy => ?notAdmitted, fun hadmits hfetch => ?notFetched,
    fun hadmits hfetch hstop => ?stop⟩
  case notAdmitted =>
    exact hrefused _ (hrow.trans (decodeRow_not_admitted _ _ _ _ (admits_eq_false hdecided hpolicy)))
  case notFetched => exact hrefused _ (hrow.trans (decodeRow_not_fetched _ hadmits hfetch))
  case stop =>
    subst hstop
    exact hrefused _ (hrow.trans (decodeRow_stop_disagrees _ hadmits hfetch
      (stopAgrees_stop_of_ne (opcode_ne_stop hrun hgoing))))

/-- Settles O25: each word is looked up in the rows of `Tex`. -/
theorem testTableWordsDecode : Obligations.TestTableWordsDecode := ⟨rfl, rfl, rfl, rfl⟩

/-! A word placed where the next step fetches. -/

theorem withFetchWord_eq (s : State) (nbits w : Nat) :
    s.withFetchWord nbits w =
      (s.poke s.regI (BitVec.ofNat 6 (w % 2 ^ nbits))).poke (s.regI + 1)
        (BitVec.ofNat 6 (w % 2 ^ nbits / 64)) := rfl

theorem cell_ne_succ (a : Cell) : a ≠ a + 1 := by
  intro h
  have := congrArg BitVec.toNat h
  rw [BitVec.toNat_add] at this
  change a.toNat = (a.toNat + 1) % 64 at this
  omega

theorem withFetchWord_fetchCells (s : State) (nbits w : Nat) :
    (s.withFetchWord nbits w).fetchCells = cellsOfWord nbits w := by
  have hI : (s.withFetchWord nbits w).regI = s.regI := rfl
  rw [State.fetchCells, hI, withFetchWord_eq, poke_read, poke_read, poke_read, if_neg (cell_ne_succ s.regI),
    if_pos rfl, if_pos rfl, cellsOfWord]

theorem withFetchWord_keeps (s : State) (nbits w : Nat) : SameRest s (s.withFetchWord nbits w) :=
  placeCells_sameRest _ _ _

theorem SameRest.cfg {s t : State} (h : SameRest s t) : t.cfg = s.cfg := by
  obtain ⟨-, -, -, -, -, -, hcfg⟩ := h
  exact hcfg

/-- Settles O21: the word's two cells stand at I and I + 1, which are different cells, and nothing else moved. -/
theorem placedWordIsWhatTheStepFetches : Obligations.PlacedWordIsWhatTheStepFetches := by
  intro s nbits w
  have hcells := withFetchWord_fetchCells s nbits w
  have hkeeps := withFetchWord_keeps s nbits w
  refine ⟨hcells, fun i rest hdecode => ?decoded, fun a hI hI1 => ?others, placeCells_reg _ _ _, hkeeps⟩
  case decoded => exact fetchDecode_of_decode (by rw [hkeeps.cfg, hcells, hdecode])
  case others => rw [withFetchWord_eq, poke_read, poke_read, if_neg hI1, if_neg hI]

/-! A step of a decoded instruction. -/

theorem exec_stop (o : Operands) (s : State) : exec (.stop o) s = .next s := rfl

/-- Settles O56: STOP has no phases. -/
theorem stopChangesNothing : Obligations.StopChangesNothing := exec_stop

theorem cls_eq_stop {i : Instr} (h : i.cls = .stop) : i = .stop i.operands := by
  rw [← ofClass_eta i, h, ofClass_operands]
  rfl

/-- In status RUN, under (W2), the machine is halted exactly when the decoded class is STOP. -/
theorem halted_iff_cls_stop {s : State} {i : Instr} (hrun : s.status = .run) (hfetch : s.fetchDecode = .ok i) :
    s.halted = true ↔ i.cls = .stop := by
  obtain ⟨hwf, -⟩ := fetchDecode_cells hfetch
  obtain ⟨-, ⟨-, -, hagrees⟩, -⟩ := wellFormed_row hwf
  rw [Config.stopAgrees, fetchDecode_opcode hfetch, beq_iff_eq, Bool.eq_iff_iff, beq_iff_eq, beq_iff_eq] at hagrees
  rw [halted_iff, hagrees]
  exact and_iff_right hrun

theorem step_of_fetchDecode {s : State} {i : Instr} (hrun : s.status = .run) (hgoing : s.halted = false)
    (h : s.fetchDecode = .ok i) : step s = runInstr i s := by
  rw [step, hrun, hgoing, h]
  rfl

theorem runInstr_of_exec {i : Instr} {s t : State} (h : exec i s = .next t) :
    runInstr i s = .next t.completeUnlessFaulted := by
  rw [runInstr, h]

/-- Settles O8: a halted step and STOP both change nothing; any other step is `exec`, then TICK and IO unless it
took a fault. -/
theorem stepRunsTheDecodedInstruction : Obligations.StepRunsTheDecodedInstruction := by
  intro s t i rest hrun hdecode hexec
  obtain ⟨hwf, -⟩ := decode_ok hdecode
  have hfetch : s.fetchDecode = .ok i := fetchDecode_of_decode hdecode
  have hgoing : i.cls ≠ .stop → step s = .next t.completeUnlessFaulted := by
    intro hclass
    have hnot : s.halted = false :=
      Bool.eq_false_of_not_eq_true fun h => hclass ((halted_iff_cls_stop hrun hfetch).mp h)
    rw [step_of_fetchDecode hrun hnot hfetch, runInstr_of_exec hexec]
  refine ⟨hwf, fun hclass => ?stop, fun hclass ht => ?completed, fun hclass ht => ?faulted⟩
  case stop =>
    rw [cls_eq_stop hclass, exec_stop] at hexec
    cases hexec
    exact step_of_halted ((halted_iff_cls_stop hrun hfetch).mpr hclass)
  case completed => rw [hgoing hclass, completeUnlessFaulted_run ht, State.complete]
  case faulted => rw [hgoing hclass, completeUnlessFaulted_fault ht]

end Sys2Proof.Machine
end

section
/-! The supplied inputs: no phase before the I/O pass looks at them, so a step depends on the first one only
through PORT, and the rest wait in the queue; the host's run feeds them one per step (20_memory.md R84;
60_exceptions.md R293, R294). -/

namespace Sys2Proof.Machine

/-- The state with other supplied inputs. -/
def State.withInputs (s : State) (p : List Cell) : State := { s with inpQueue := p }

section
variable (s : State) (p : List Cell)

@[simp] theorem withInputs_status : (s.withInputs p).status = s.status := rfl
@[simp] theorem withInputs_cfg : (s.withInputs p).cfg = s.cfg := rfl
@[simp] theorem withInputs_tick : (s.withInputs p).tick = s.tick := rfl
@[simp] theorem withInputs_inpQueue : (s.withInputs p).inpQueue = p := rfl
@[simp] theorem withInputs_reg (r : Reg) : (s.withInputs p).reg r = s.reg r := by cases r <;> rfl

theorem advance_withInputs (o : Operands) :
    (s.withInputs p).advance o = (s.advance o).withInputs p := rfl

theorem stackAdjust_withInputs (e : SideEffect) :
    (s.withInputs p).stackAdjust e = (s.stackAdjust e).withInputs p := by cases e <;> rfl

theorem baseIncrement_withInputs (e : SideEffect) :
    (s.withInputs p).baseIncrement e = (s.baseIncrement e).withInputs p := by cases e <;> rfl

theorem jumpTo_withInputs (j : Option Cell) :
    (s.withInputs p).jumpTo j = (s.jumpTo j).withInputs p := by cases j <;> rfl

theorem putFlags_withInputs (b : Option FlagBits) :
    (s.withInputs p).putFlags b = (s.putFlags b).withInputs p := by cases b <;> rfl

theorem setReg_withInputs (r : Reg) (v : Cell) :
    (s.withInputs p).setReg r v = (s.setReg r v).withInputs p := by cases r <;> rfl

theorem takeFault_withInputs (c : FaultCause) (opcode addr : Cell) :
    (s.withInputs p).takeFault c opcode addr = (s.takeFault c opcode addr).withInputs p := by
  simp only [State.takeFault, State.withInputs]

theorem srcValue_withInputs (o : Operands) : srcValue o (s.withInputs p) = srcValue o s := by
  unfold srcValue
  cases o.source with
  | reg r => exact congrArg some (withInputs_reg s p r)
  | none | imm | immInd | baseInd | stackInd | quick | flag => rfl

theorem tgtLoc_withInputs (o : Operands) : tgtLoc o (s.withInputs p) = tgtLoc o s := rfl

theorem readLoc_withInputs (loc : Loc) : (s.withInputs p).readLoc loc = s.readLoc loc := by
  cases loc with
  | reg r => exact congrArg some (withInputs_reg s p r)
  | mem | flag | imm | none => rfl

theorem memWrite_withInputs (a v : Cell) :
    (s.withInputs p).memWrite a v = (s.memWrite a v).map (·.withInputs p) := by
  unfold State.memWrite
  rw [withInputs_cfg]
  cases isProgram a with
  | true => cases s.cfg.promWritePolicy <;> rfl
  | false => cases a == s.cfg.ioMap.port <;> rfl

theorem writeLoc_withInputs (v : Cell) (loc : Loc) :
    (s.withInputs p).writeLoc v loc = (s.writeLoc v loc).map (·.withInputs p) := by
  cases loc with
  | mem a => exact memWrite_withInputs s p a v
  | reg r => exact congrArg Except.ok (setReg_withInputs s p r v)
  | flag | imm | none => rfl

theorem writeback_withInputs (loc : Loc) (w : Option Cell) :
    (s.withInputs p).writeback loc w = (s.writeback loc w).map (·.withInputs p) := by
  cases w with
  | none => rfl
  | some v => exact writeLoc_withInputs s p v loc

theorem settle_withInputs (o : Operands) (loc : Loc) (e : Effect) :
    settle o loc e (s.withInputs p) = (settle o loc e s).map (·.withInputs p) := by
  unfold settle
  rw [putFlags_withInputs, writeback_withInputs]
  cases (s.putFlags e.flags).writeback loc e.write with
  | error c => rfl
  | ok t => exact congrArg Except.ok (by rw [jumpTo_withInputs, baseIncrement_withInputs])

theorem withSource_withInputs (o : Operands) {eff : Cell → State → Effect}
    (heff : ∀ v t, eff v (t.withInputs p) = eff v t) :
    withSource o (s.withInputs p) eff = (withSource o s eff).map (·.withInputs p) := by
  unfold withSource
  rw [advance_withInputs, srcValue_withInputs, stackAdjust_withInputs, tgtLoc_withInputs]
  cases srcValue o (s.advance o) with
  | none => rfl
  | some v => simp only [heff, settle_withInputs]

theorem withTarget_withInputs (o : Operands) {eff : Cell → State → Effect}
    (heff : ∀ v t, eff v (t.withInputs p) = eff v t) :
    withTarget o (s.withInputs p) eff = (withTarget o s eff).map (·.withInputs p) := by
  unfold withTarget
  rw [advance_withInputs, stackAdjust_withInputs, tgtLoc_withInputs, readLoc_withInputs]
  cases State.readLoc _ _ with
  | none => rfl
  | some tv => simp only [heff, settle_withInputs]

theorem withBoth_withInputs (o : Operands) (eff : Cell → Cell → Effect) :
    withBoth o (s.withInputs p) eff = (withBoth o s eff).map (·.withInputs p) := by
  unfold withBoth
  rw [advance_withInputs, srcValue_withInputs]
  cases srcValue o (s.advance o) with
  | none => rfl
  | some v => exact withTarget_withInputs s p o fun _ _ => rfl

/-- No phase before TICK looks at the supplied inputs. -/
theorem phasesOf_withInputs (i : Instr) :
    phasesOf i (s.withInputs p) = (phasesOf i s).map (·.withInputs p) := by
  cases i with
  | stop o => rfl
  | nop o =>
    simp only [phasesOf, advance_withInputs, stackAdjust_withInputs, baseIncrement_withInputs]
    rfl
  | load o | push o | pop o | jmp o | jz o | jnz o | jc o | jnc o | jm o | jnm o | call o | ret o =>
    simp only [phasesOf, jumpIf]
    exact withSource_withInputs s p o fun _ _ => rfl
  | add o | sub o | and o | or o | xor o => exact withBoth_withInputs s p o _
  | not o | inc o | dec o | rol o | ror o =>
    simp only [phasesOf]
    exact withTarget_withInputs s p o fun _ _ => rfl

theorem phasesOf_withInputs_ok {i : Instr} {s u : State} (p : List Cell) :
    phasesOf i (s.withInputs p) = .ok u ↔ ∃ w, phasesOf i s = .ok w ∧ u = w.withInputs p := by
  rw [phasesOf_withInputs]
  cases phasesOf i s with
  | error c => simp [Except.map]
  | ok w => simp [Except.map, eq_comm]

theorem phasesOf_withInputs_error {i : Instr} {s : State} {c : FaultCause} (p : List Cell) :
    phasesOf i (s.withInputs p) = .error c ↔ phasesOf i s = .error c := by
  rw [phasesOf_withInputs]
  cases phasesOf i s with
  | error c => simp [Except.map]
  | ok w => simp [Except.map]

end

/-! One step. -/

theorem step_completes {i : Instr} {s u : State} (hrun : s.status = .run) (hgoing : s.halted = false)
    (hfetch : s.fetchDecode = .ok i) (hphases : phasesOf i s = .ok u) : step s = .next u.complete := by
  have hexec : exec i s = .next u := by rw [exec_eq, hphases, conclude_ok]
  rw [step_of_fetchDecode hrun hgoing hfetch, runInstr_of_exec hexec,
    completeUnlessFaulted_run ((phasesOf_keep hphases).status.trans hrun)]

theorem step_faults {i : Instr} {s : State} {c : FaultCause} (hrun : s.status = .run)
    (hgoing : s.halted = false) (hfetch : s.fetchDecode = .ok i) (hphases : phasesOf i s = .error c) :
    step s = .next (s.takeFault c i.operands.opcode s.regI) := by
  have hexec : exec i s = .next (s.takeFault c i.operands.opcode s.regI) := by
    rw [exec_eq, hphases, conclude_error]
  rw [step_of_fetchDecode hrun hgoing hfetch, runInstr_of_exec hexec, completeUnlessFaulted_fault]
  rw [takeFault_status]
  exact Status.noConfusion

/-- Two states show the same to everyone but PORT and the queue: status, t and latches; and in status RUN the
registers and every cell but PORT. -/
def SameButPort (t u : State) : Prop :=
  (t.status = .run →
    (∀ r, t.reg r = u.reg r) ∧ ∀ a : Cell, a ≠ t.cfg.ioMap.port → t.read a = u.read a) ∧
  t.status = u.status ∧ t.tick = u.tick ∧ t.outLatch = u.outLatch ∧ t.display = u.display

theorem withInputs_sameButPort (s : State) (p q : List Cell) :
    SameButPort (s.withInputs p) (s.withInputs q) :=
  ⟨fun _ => ⟨fun r => by rw [withInputs_reg, withInputs_reg], fun _ _ => rfl⟩, rfl, rfl, rfl, rfl⟩

theorem complete_read_withInputs (s : State) (p q : List Cell) {a : Cell} (ha : a ≠ s.cfg.ioMap.port) :
    (s.withInputs p).complete.read a = (s.withInputs q).complete.read a := by
  rw [complete_read_of_ne_port (s := s.withInputs p) ha, complete_read_of_ne_port (s := s.withInputs q) ha]
  rfl

/-- TICK and IO bring the inputs to PORT and to nothing else: out runs before the merge, and no display cell is
PORT. -/
theorem complete_sameButPort {s : State} (h : s.cfg.ioMap.wellFormed = true) (p q : List Cell) :
    SameButPort (s.withInputs p).complete (s.withInputs q).complete := by
  refine ⟨fun _ => ⟨fun r => ?regs, fun a ha => ?cells⟩, ?status, ?tick, ?out, ?display⟩
  case regs => rw [complete_reg, complete_reg, withInputs_reg, withInputs_reg]
  case cells => exact complete_read_withInputs s p q (by rwa [complete_cfg] at ha)
  case status => rw [complete_status, complete_status, withInputs_status, withInputs_status]
  case tick => rw [complete_tick, complete_tick, withInputs_tick, withInputs_tick]
  case out => rw [complete_outLatch, complete_outLatch]; rfl
  case display =>
    rw [complete_display (s := s.withInputs p) h, complete_display (s := s.withInputs q) h]
    rfl

/-- Whatever the inputs, a step ends in the same way, and its ends differ in PORT alone. -/
theorem step_sameButPort {s t u : State} {p q : List Cell} (hmap : s.cfg.ioMap.wellFormed = true)
    (hp : step (s.withInputs p) = .next t) (hq : step (s.withInputs q) = .next u) : SameButPort t u := by
  obtain ⟨hrun, ⟨hhalted, rfl⟩ | ⟨hgoing, i, w, hfetch, hphases, -, rfl⟩ | ⟨hgoing, i, c, hfetch, hphases, rfl⟩⟩ :=
    step_next_cases hp
  case inl =>
    rw [step_of_halted (s := s.withInputs q) hhalted] at hq
    cases hq
    exact withInputs_sameButPort s p q
  case inr.inl =>
    obtain ⟨x, hx, rfl⟩ := (phasesOf_withInputs_ok p).mp hphases
    rw [step_completes (s := s.withInputs q) hrun hgoing hfetch ((phasesOf_withInputs_ok q).mpr ⟨x, hx, rfl⟩)]
      at hq
    cases hq
    exact complete_sameButPort (by rwa [(phasesOf_keep hx).cfg]) p q
  case inr.inr =>
    have hx := (phasesOf_withInputs_error p).mp hphases
    rw [step_faults (s := s.withInputs q) hrun hgoing hfetch ((phasesOf_withInputs_error q).mpr hx)] at hq
    cases hq
    rw [takeFault_withInputs, takeFault_withInputs]
    exact withInputs_sameButPort _ p q

/-- Settles O18: the queue is first looked at by the input merge, which writes PORT alone. -/
theorem inputPinsChangeOnlyPort : Obligations.InputPinsChangeOnlyPort := by
  intro s t u p q hmap hp hq
  have hcfg : t.cfg = s.cfg := step_keeps_cfg (s := s.withInputs p) hp
  have hsame : SameButPort t u := step_sameButPort hmap hp hq
  rw [SameButPort, hcfg] at hsame
  exact hsame

/-! Runs of the host. -/

/-- A step takes one input; the ones behind it wait. -/
theorem complete_withInputs_cons (s : State) (v : Cell) (vs : List Cell) :
    (s.withInputs (v :: vs)).complete = (s.withInputs [v]).complete.withInputs vs := rfl

theorem completedStep_withInputs_cons {s t : State} {v : Cell} (h : CompletedStep (s.withInputs [v]) t)
    (vs : List Cell) : t.inpQueue = [] ∧ CompletedStep (s.withInputs (v :: vs)) (t.withInputs vs) := by
  obtain ⟨hrun, hgoing, i, w, hfetch, hphases, -, rfl⟩ := completedStep_cases h
  obtain ⟨-, -, hdone⟩ := h
  obtain ⟨x, hx, rfl⟩ := (phasesOf_withInputs_ok [v]).mp hphases
  refine ⟨by rw [complete_inpQueue, withInputs_inpQueue, List.tail_cons], hgoing, ?_, hdone⟩
  rw [step_completes (s := s.withInputs (v :: vs)) hrun hgoing hfetch
    ((phasesOf_withInputs_ok _).mpr ⟨x, hx, rfl⟩), complete_withInputs_cons]

theorem hostStep_of_fault {s : State} {r : FaultRecord} (v : Cell) (h : s.status = .fault r) :
    hostStep v s = (.fault r, s) := by
  rw [hostStep, h]

theorem hostStep_of_halted {s : State} (v : Cell) (h : s.halted = true) : hostStep v s = (.halted, s) := by
  obtain ⟨hrun, -⟩ := halted_iff.mp h
  rw [hostStep, hrun, h]
  rfl

/-- Everything a host step can report: the halt, a completed step, or why there was none. -/
theorem hostStep_cases (v : Cell) (s : State) :
    (s.halted = true ∧ hostStep v s = (.halted, s)) ∨
    (∃ t, hostStep v s = (.stepped, t) ∧ CompletedStep (s.withInputs (v :: s.inpQueue)) t) ∨
    ((∀ t, ¬ CompletedStep (s.withInputs (v :: s.inpQueue)) t) ∧
      ((∃ r t, hostStep v s = (.fault r, t)) ∨ ∃ why t, hostStep v s = (.refused why, t))) := by
  obtain ⟨out, hout⟩ : ∃ out, hostStep v s = out := ⟨_, rfl⟩
  rw [hout]
  unfold hostStep at hout
  split at hout
  next r hs =>
    refine .inr (.inr ⟨fun t h => ?_, .inl ⟨r, s, hout.symm⟩⟩)
    obtain ⟨hrun, -⟩ := completedStep_cases h
    rw [withInputs_status, hs] at hrun
    cases hrun
  next hs =>
    split at hout
    next hh => exact .inl ⟨hh, hout.symm⟩
    next hh =>
      split at hout
      next t hstep =>
        split at hout
        next ht => exact .inr (.inl ⟨t, hout.symm, Bool.eq_false_of_not_eq_true hh, hstep, ht⟩)
        next r ht =>
          refine .inr (.inr ⟨fun u h => ?_, .inl ⟨r, _, hout.symm⟩⟩)
          obtain ⟨-, hnext, hdone⟩ := h
          cases hstep.symm.trans hnext
          rw [ht] at hdone
          cases hdone
      next r hstep =>
        refine .inr (.inr ⟨fun u h => ?_, .inl ⟨r, s, hout.symm⟩⟩)
        obtain ⟨-, hnext, -⟩ := h
        cases hstep.symm.trans hnext
      next why hstep =>
        refine .inr (.inr ⟨fun u h => ?_, .inr ⟨why, s, hout.symm⟩⟩)
        obtain ⟨-, hnext, -⟩ := h
        cases hstep.symm.trans hnext

theorem completedStep_unique {s t u : State} (ht : CompletedStep s t) (hu : CompletedStep s u) : t = u := by
  obtain ⟨-, hstep, -⟩ := ht
  obtain ⟨-, hstep', -⟩ := hu
  cases hstep.symm.trans hstep'
  rfl

theorem hostStep_of_completed {s t : State} {v : Cell}
    (h : CompletedStep (s.withInputs (v :: s.inpQueue)) t) : hostStep v s = (.stepped, t) := by
  rcases hostStep_cases v s with ⟨hhalted, -⟩ | ⟨u, hstep, hu⟩ | ⟨hnone, -⟩
  · obtain ⟨hgoing, -⟩ := h
    exact Bool.noConfusion (hgoing.symm.trans hhalted)
  · rw [hstep, completedStep_unique hu h]
  · exact absurd h (hnone t)

theorem hostRun_of_halted {v : Cell} {s : State} (vs : List Cell) (h : hostStep v s = (.halted, s)) :
    hostRun (v :: vs) s = (.halted, 0, s) := by
  rw [hostRun, h]

theorem hostRun_of_stepped {v : Cell} {s t : State} (vs : List Cell) (h : hostStep v s = (.stepped, t)) :
    hostRun (v :: vs) s = ((hostRun vs t).1, (hostRun vs t).2.1 + 1, (hostRun vs t).2.2) := by
  rw [hostRun, h]

theorem hostRun_of_fault {v : Cell} {s t : State} {r : FaultRecord} (vs : List Cell)
    (h : hostStep v s = (.fault r, t)) : hostRun (v :: vs) s = (.fault r, 0, t) := by
  rw [hostRun, h]

theorem hostRun_of_refused {v : Cell} {s t : State} {why : Refusal} (vs : List Cell)
    (h : hostStep v s = (.refused why, t)) : hostRun (v :: vs) s = (.refused why, 0, t) := by
  rw [hostRun, h]

/-- The steps a host run counts before a halt are the machine's own, one input drawn by each. -/
theorem hostRun_halted_steps (inps : List Cell) : ∀ (s t : State) (n : Nat), s.inpQueue = [] →
    hostRun inps s = (.halted, n, t) →
      n ≤ inps.length ∧ t.halted = true ∧ t.inpQueue = [] ∧
        CompletedSteps n (s.withInputs inps) (t.withInputs (inps.drop n)) := by
  induction inps with
  | nil => intro s t n _ h; cases h
  | cons v vs ih =>
    intro s t n hempty h
    rcases hostStep_cases v s with ⟨hhalted, hstep⟩ | ⟨u, hstep, hdone⟩ | ⟨-, ⟨r, u, hstep⟩ | ⟨why, u, hstep⟩⟩
    · rw [hostRun_of_halted vs hstep] at h
      cases h
      exact ⟨Nat.zero_le _, hhalted, hempty, .none _⟩
    · rw [hempty] at hdone
      obtain ⟨huempty, hdone'⟩ := completedStep_withInputs_cons hdone vs
      rw [hostRun_of_stepped vs hstep] at h
      obtain ⟨hend, hrest⟩ := Prod.mk.inj h
      obtain ⟨rfl, hlast⟩ := Prod.mk.inj hrest
      obtain ⟨hn, hhalted, htempty, hsteps⟩ := ih u t _ huempty (Prod.ext hend (Prod.ext rfl hlast))
      exact ⟨Nat.succ_le_succ hn, hhalted, htempty, .more hdone' hsteps⟩
    · rw [hostRun_of_fault vs hstep] at h; cases h
    · rw [hostRun_of_refused vs hstep] at h; cases h

/-- Settles O7: the run's completed steps, and the halted state they end in, are a normal end. -/
theorem hostRunIsCompletedStepsToAHalt : Obligations.HostRunIsCompletedStepsToAHalt := by
  intro inps s t n hempty h
  obtain ⟨hn, hhalted, htempty, hsteps⟩ := hostRun_halted_steps inps s t n hempty h
  exact ⟨hn, hhalted, htempty, hsteps, n, _, hsteps, hhalted⟩

/-- Settles O59, by induction on the inputs: only the empty list ends in `limit`, and every step before it is
counted; another end leaves inputs uncounted. -/
theorem hostRunAtItsCeilingAnswersLimit : Obligations.HostRunAtItsCeilingAnswersLimit := by
  intro inps
  induction inps with
  | nil => exact fun s => ⟨fun _ => rfl, fun _ => rfl⟩
  | cons v vs ih =>
    intro s
    rcases hostStep_cases v s with ⟨-, hstep⟩ | ⟨u, hstep, -⟩ | ⟨-, ⟨r, u, hstep⟩ | ⟨why, u, hstep⟩⟩
    · simp [hostRun_of_halted vs hstep]
    · rw [hostRun_of_stepped vs hstep, List.length_cons]
      exact (ih u).trans Nat.succ_inj.symm
    · simp [hostRun_of_fault vs hstep]
    · simp [hostRun_of_refused vs hstep]

/-! The clock edge. -/

theorem clockEdge_step {p : Pins} {s t : State} {report : StepReport} (hrst : p.rst = false)
    (hen : p.stepEn = true) (h : hostStep p.inp s = (report, t)) (hr : ∀ why, report ≠ .refused why) :
    clockEdge p s = .next t := by
  rw [clockEdge, hrst, hen, h, Bool.not_true, Bool.and_false]
  cases report with
  | refused why => exact absurd rfl (hr why)
  | halted | fault | stepped => rfl

theorem faulted_iff {s : State} : s.faulted = true ↔ ∃ r, s.status = .fault r := by
  rw [State.faulted, State.faultRecord]
  cases s.status <;> simp

/-- Settles O6: the pins are tested in the order of the priorities; an enabled edge is a host step, which leaves
a faulted and a halted machine as it is. -/
theorem clockEdgeFollowsItsPriorities : Obligations.ClockEdgeFollowsItsPriorities := by
  intro p s
  refine ⟨fun hrst => ?reset, fun hrst hld hen => ?loader, fun hrst hen hld => ?idle,
    fun hrst hen hfaulted => ?faulted, fun hrst hen hhalted => ?halted, fun hrst hen hgoing t hnext hdone => ?step⟩
  case reset => rw [clockEdge, if_pos hrst]
  case loader => rw [clockEdge, hrst, hld, hen]; rfl
  case idle => rw [clockEdge, hrst, hld, hen]; rfl
  case faulted =>
    obtain ⟨r, hr⟩ := faulted_iff.mp hfaulted
    exact clockEdge_step hrst hen (hostStep_of_fault p.inp hr) fun _ => StepReport.noConfusion
  case halted => exact clockEdge_step hrst hen (hostStep_of_halted p.inp hhalted) fun _ => StepReport.noConfusion
  case step =>
    have hcompleted : CompletedStep (s.withInputs (p.inp :: s.inpQueue)) t := ⟨hgoing, hnext, hdone⟩
    exact clockEdge_step hrst hen (hostStep_of_completed hcompleted) fun _ => StepReport.noConfusion

/-- Settles O10: of the ways a step from RUN ends only the fault entry leaves RUN; it holds the record, and a
faulted state has no step. -/
theorem faultEndsTheStepUntilReset : Obligations.FaultEndsTheStepUntilReset := by
  intro s t hrun hstep hleft
  obtain ⟨-, ⟨-, rfl⟩ | ⟨-, i, u, -, -, hkeep, rfl⟩ | ⟨-, i, c, hfetch, -, rfl⟩⟩ := step_next_cases hstep
  · exact absurd hrun hleft
  · exact absurd ((complete_status u).trans (hkeep.status.trans hrun)) hleft
  · have hstatus := takeFault_status s c i.operands.opcode s.regI
    exact ⟨faulted_iff.mpr ⟨_, hstatus⟩, takeFault_tick _ _ _ _, _, hstatus, rfl, fetchDecode_opcode hfetch, rfl,
      fun n => run_fault n (step_fault hstatus), applyReset_status _⟩

end Sys2Proof.Machine
end

section
/-! Reset, load, the loader port, the write filter and the character set (10_state.md R36; 20_memory.md R70 to
R72; 70_reset_and_hazards.md R310 to R314). -/

namespace Sys2Proof.Machine

/-! Reset. -/

theorem applyReset_read_program (s : State) {a : Cell} (h : isProgram a = true) :
    s.applyReset.read a = s.read a := by
  rw [applyReset_read, if_pos h]

theorem applyReset_read_below (s : State) {a : Cell} (h : isProgram a = false) :
    s.applyReset.read a = resetCell s.cfg.resetValues a.toNat := by
  rw [applyReset_read, h, if_neg Bool.false_ne_true]

theorem cell_ofNat_toNat {k : Nat} (h : k < 64) : (BitVec.ofNat 6 k).toNat = k := by
  rw [BitVec.toNat_ofNat]
  exact Nat.mod_eq_of_lt h

theorem ofNat_not_program {k : Nat} (h : k < 24) : isProgram (BitVec.ofNat 6 k) = false := by
  rw [isProgram_eq_false_iff, cell_ofNat_toNat (by omega)]
  exact h

/-- Each configured reset cell reads back after a reset. -/
theorem applyReset_read_cell (s : State) (k : Fin 24) :
    s.applyReset.read (BitVec.ofNat 6 k.val) = s.cfg.resetValues.cells[k] := by
  rw [applyReset_read_below s (ofNat_not_program k.isLt), cell_ofNat_toNat (by omega), resetCell_eq]

/-- Under the decided values a reset leaves 0 in the cells below the program region, in t and in the latches. -/
theorem applyReset_decided {s : State} (h : s.cfg.resetValues = decidedResetValues) :
    (∀ a : Cell, isProgram a = false → s.applyReset.read a = 0) ∧ s.applyReset.tick = 0 ∧
      s.applyReset.outLatch = 0 ∧ s.applyReset.display = ⟨0, 0, 0, 0⟩ := by
  refine ⟨fun a ha => ?_, ?_, ?_, ?_⟩
  · rw [applyReset_read_below s ha, h, resetCell_decided]
  · rw [applyReset_tick, h]; rfl
  · rw [applyReset_outLatch, h]; rfl
  · rw [applyReset_display, h]; rfl

/-! Load. -/

theorem load_reg (s : State) (image : Image) (r : Reg) : (s.load image).reg r = s.reg r :=
  placeCells_reg _ _ _ _

theorem load_sameRest (s : State) (image : Image) : SameRest s (s.load image) := placeCells_sameRest _ _ _

/-- The image's 40 cells fill the program region exactly. -/
theorem load_read (s : State) (image : Image) (a : Cell) :
    (s.load image).read a = if isProgram a = true then image.toList.getD (a.toNat - 0o30) 0 else s.read a := by
  have hlength : image.toList.length = 40 := Vector.length_toList
  have hbase : (0o30 : Cell).toNat = 0o30 := rfl
  rw [State.load, placeCells_read _ _ _ _ (by rw [hlength, hbase]), hlength, hbase]
  have hlt := a.isLt
  refine if_congr ?_ rfl rfl
  rw [isProgram_iff]
  omega

theorem load_read_below (s : State) (image : Image) {a : Cell} (h : isProgram a = false) :
    (s.load image).read a = s.read a := by
  rw [load_read, h, if_neg Bool.false_ne_true]

theorem load_read_image (s : State) (image : Image) (k : Fin 40) :
    (s.load image).read (BitVec.ofNat 6 (0o30 + k.val)) = image[k] := by
  have haddr : (BitVec.ofNat 6 (0o30 + k.val)).toNat = 0o30 + k.val := cell_ofNat_toNat (by omega)
  have hprogram : isProgram (BitVec.ofNat 6 (0o30 + k.val)) = true := by
    rw [isProgram_iff, haddr]
    omega
  rw [load_read, if_pos hprogram, haddr, Nat.add_sub_cancel_left]
  simp

/-- What a load puts in the program region does not depend on what stood there. -/
theorem load_read_program (s t : State) (image : Image) {a : Cell} (h : isProgram a = true) :
    (s.load image).read a = (t.load image).read a := by
  rw [load_read, load_read, if_pos h, if_pos h]

/-- A reset after a load reads as a load after the reset: the two write different regions. -/
theorem load_applyReset_read (s : State) (image : Image) (a : Cell) :
    (s.load image).applyReset.read a = (s.applyReset.load image).read a := by
  cases h : isProgram a with
  | true => rw [applyReset_read_program _ h, load_read_program s s.applyReset image h]
  | false =>
    rw [applyReset_read_below _ h, load_read_below _ _ h, applyReset_read_below _ h, (load_sameRest s image).cfg]

/-- Settles O2: a reset writes the registers, t, the latches, the status and the cells below the program region;
a load writes the other cells. -/
theorem hostResetRestoresAllButTheProgram : Obligations.HostResetRestoresAllButTheProgram := by
  intro s
  refine ⟨rfl, rfl, rfl, rfl, rfl, applyReset_read_cell s, fun hdecided => ?_, fun a ha => ?_, rfl, rfl, rfl, rfl,
    rfl, rfl, load_applyReset_read s⟩
  · obtain ⟨hcells, hrest⟩ := applyReset_decided hdecided
    exact ⟨fun a ha => hcells a (isProgram_eq_false_iff.mpr ha), hrest⟩
  · exact applyReset_read_program s (isProgram_iff.mpr ha)

/-- Settles O4: 40 cells from 0o30 on end at the last address. -/
theorem loadPlacesTheImageInTheProgramRegion : Obligations.LoadPlacesTheImageInTheProgramRegion := by
  intro s image
  exact ⟨load_read_image s image, fun a ha => load_read_below s image (isProgram_eq_false_iff.mpr ha),
    load_reg s image, load_sameRest s image⟩

/-- A state with the registers, t, status, latches and configuration of a reset, and the cells of the reset and
the image: what the launch premise fixes, whichever of the two came first. -/
structure Launched (image : Image) (reset s : State) : Prop where
  reg : ∀ r, s.reg r = reset.applyReset.reg r
  rest : SameRest reset.applyReset s
  read : ∀ a, s.read a = (reset.applyReset.load image).read a

theorem launched_of_cleanLaunch {image : Image} {s : State} (h : s.CleanLaunch image) :
    ∃ reset, Launched image reset s := by
  obtain ⟨before, rfl | rfl⟩ := h
  · exact ⟨before, load_reg _ _, load_sameRest _ _, fun _ => rfl⟩
  · have hcfg := (load_sameRest before image).cfg
    obtain ⟨-, -, -, -, hqueue, hdraws, -⟩ := load_sameRest before image
    refine ⟨before, fun r => ?_, ?_, load_applyReset_read before image⟩
    · cases r <;> simp [State.reg, hcfg]
    · simp [SameRest, hcfg, hqueue, hdraws]

/-- Settles O3: the load leaves what the reset gave below the program region, the reset what the load put in
it. -/
theorem cleanLaunchFixesTheState : Obligations.CleanLaunchFixesTheState := by
  intro image s hlaunch
  obtain ⟨reset, hreg, ⟨htick, hstatus, hout, hdisplay, -, -, hcfg⟩, hread⟩ := launched_of_cleanLaunch hlaunch
  rw [applyReset_cfg] at hcfg
  have hbelow : ∀ a, isProgram a = false → s.read a = reset.applyReset.read a := fun a ha => by
    rw [hread, load_read_below _ _ ha]
  rw [hcfg, htick, hout, hdisplay]
  refine ⟨hreg .a, hreg .b, hreg .i, hreg .s, hreg .f, fun k => ?cells, fun k => ?image, rfl, hstatus, rfl, rfl,
    fun hdecided => ?decided⟩
  case cells => rw [hbelow _ (ofNat_not_program k.isLt), applyReset_read_cell]
  case image => rw [hread, load_read_image]
  case decided =>
    obtain ⟨hzero, hrest⟩ := applyReset_decided hdecided
    refine ⟨fun a ha => ?_, hrest⟩
    have hnot := isProgram_eq_false_iff.mpr ha
    rw [hbelow a hnot, hzero a hnot]

/-- A memory that lists nothing reads as its unlisted values. -/
theorem reset_read (a : Cell) : State.reset.read a = Memory.unlisted a := rfl

/-- No bit of an F that is 0 is set. -/
theorem flagSet_zero (k : FlagMasks) (x : Flag) : flagSet k 0 x = false := by
  simp [flagSet]

/-- Settles O1: the decided values, field by field. -/
theorem resetStateHoldsTheDecidedValues : Obligations.ResetStateHoldsTheDecidedValues := by
  refine ⟨rfl, rfl, rfl, rfl, rfl, fun x => flagSet_zero _ x, fun a ha => ?below, fun a ha => ?program, rfl, rfl,
    rfl, rfl⟩
  case below => rw [reset_read, Memory.unlisted, isProgram_eq_false_iff.mpr ha, if_neg Bool.false_ne_true]
  case program => rw [reset_read, Memory.unlisted, if_pos (isProgram_iff.mpr ha)]

/-- Settles O5: the loader writes past the filter. -/
theorem loaderPortWritesOneCellUnfiltered : Obligations.LoaderPortWritesOneCellUnfiltered := by
  intro s a v
  refine ⟨?same, fun b hb => ?other, poke_reg s a v, poke_sameRest s a v, poke_wf a v⟩
  case same => rw [State.loadCell, poke_read, if_pos rfl]
  case other => rw [State.loadCell, poke_read, if_neg hb]

/-! The write filter. -/

theorem memWrite_free {s : State} {a : Cell} (v : Cell) (hp : isProgram a = false) (h : a ≠ s.cfg.ioMap.port) :
    s.memWrite a v = .ok (s.poke a v) := by
  rw [State.memWrite, hp, beq_false_of_ne h]
  rfl

theorem memWrite_port {s : State} (v : Cell) (hp : isProgram s.cfg.ioMap.port = false) :
    s.memWrite s.cfg.ioMap.port v = .ok (s.poke s.cfg.ioMap.port
      (portWritten (s.read s.cfg.ioMap.port) (s.read s.cfg.ioMap.dir) v)) := by
  rw [State.memWrite, hp, beq_self_eq_true]
  rfl

theorem memWrite_program_ignore {s : State} {a : Cell} (v : Cell) (hp : isProgram a = true)
    (h : s.cfg.promWritePolicy = .ignore) : s.memWrite a v = .ok s := by
  rw [State.memWrite, if_pos hp, h]

theorem memWrite_program_fault {s : State} {a : Cell} (v : Cell) (hp : isProgram a = true)
    (h : s.cfg.promWritePolicy = .fault) : s.memWrite a v = .error .promWrite := by
  rw [State.memWrite, if_pos hp, h]

/-- Settles O34: only a program cell and PORT are filtered. -/
theorem freeCellReadsBackWhatWasWritten : Obligations.FreeCellReadsBackWhatWasWritten := by
  intro s a v ha hport
  refine ⟨s.poke a v, memWrite_free v (isProgram_eq_false_iff.mpr ha) hport, ?same, fun b hb => ?other,
    poke_reg s a v, poke_sameRest s a v⟩
  case same => rw [poke_read, if_pos rfl]
  case other => rw [poke_read, if_neg hb]

/-- A write to PORT takes the value where DIR is 1, as the merge takes the pins where it is 0. -/
theorem portWritten_getLsbD (port dir w : Cell) {k : Nat} (hk : k < 6) :
    (portWritten port dir w).getLsbD k = if dir.getLsbD k then w.getLsbD k else port.getLsbD k := by
  simp only [portWritten, BitVec.getLsbD_or, BitVec.getLsbD_and, BitVec.getLsbD_not, hk, decide_true,
    Bool.true_and]
  cases dir.getLsbD k <;> simp

/-- Settles O35: each kind of address has its case of the filter. -/
theorem writeFilterGuardsPortAndProgram : Obligations.WriteFilterGuardsPortAndProgram := by
  intro s v
  refine ⟨fun hport => ?port, fun a ha => ?program⟩
  case port =>
    refine ⟨_, memWrite_port v (isProgram_eq_false_iff.mpr hport), fun k hk => ?_, fun b hb => ?_⟩
    · rw [poke_read, if_pos rfl, portWritten_getLsbD _ _ _ hk]
    · rw [poke_read, if_neg hb]
  case program =>
    have hprogram := isProgram_iff.mpr ha
    exact ⟨memWrite_program_ignore v hprogram, memWrite_program_fault v hprogram⟩

/-! The character set. -/

/-- Settles O22: where no character stands twice, a character's first place is the cell it was taken from. -/
theorem characterSetRoundTrip : Obligations.CharacterSetRoundTrip := by
  intro cfg v hinjective
  have hnodup : cfg.charset.toList.Nodup := of_decide_eq_true hinjective
  have hchar : charOfCell cfg v = cfg.charset.toList[v.toNat]'(by simpa using v.isLt) := by
    rw [charOfCell, Vector.getElem_toList]
  have hplace : cfg.charset.toList.idxOf (charOfCell cfg v) = v.toNat := by
    rw [hchar, hnodup.idxOf_getElem]
  rw [cellOfChar, hplace, if_pos v.isLt, BitVec.ofNat_toNat, BitVec.setWidth_eq]

end Sys2Proof.Machine
end

section
/-! Flags and the ALU block: the flag rule, the flags packed in F, and the stored value and flags of each class
as arithmetic on cells (10_state.md R25 to R28; 42_alu.md R200 to R212). -/

namespace Sys2Proof.Machine

open Sys2Proof.Claims

/-! The flag rule. -/

theorem flagRule_c_iff (r : Int) : (flagRule r).c = true ↔ r < 0 ∨ 64 ≤ r := by
  simp [flagRule]

theorem flagRule_z_iff (r : Int) : (flagRule r).z = true ↔ r = 0 := decide_eq_true_iff

/-- Bit 5 of a result that is not negative is its 32s digit. -/
theorem flagRule_m_iff (r : Int) : (flagRule r).m = true ↔ r < 0 ∨ r / 32 % 2 = 1 := by
  simp only [flagRule, Bool.or_eq_true, Bool.and_eq_true, decide_eq_true_eq, Nat.testBit_eq_decide_div_mod_eq]
  omega

theorem toNat_mask6 (r : Int) : ((mask6 r).toNat : Int) = r % 64 := by
  rw [mask6, BitVec.toNat_ofInt]
  exact Int.toNat_of_nonneg (Int.emod_nonneg r (by decide))

/-- Settles O29, field by field. -/
theorem flagRuleReadsThePreMaskResult : Obligations.FlagRuleReadsThePreMaskResult := fun r =>
  ⟨flagRule_z_iff r, flagRule_m_iff r, flagRule_c_iff r, toNat_mask6 r⟩

/-- On a result that is no less than 0 the sign plays no part. -/
theorem flagRule_natCast (n : Nat) :
    flagRule (n : Int) = ⟨decide (64 ≤ n), n.testBit 5, decide (n = 0)⟩ := by
  have hsign : ¬ (n : Int) < 0 := by omega
  simp [flagRule, hsign]

theorem flagRule_of_neg {r : Int} (h : r < 0) : flagRule r = ⟨true, true, false⟩ := by
  have hz : r ≠ 0 := by omega
  simp [flagRule, h, hz]

/-- The flags of a value stored as it is. -/
theorem flagRule_toNat (v : Cell) : flagRule (v.toNat : Int) = flagsOfValue v := by
  have hc : ¬ 64 ≤ v.toNat := by have := v.isLt; omega
  rw [flagRule_natCast, flagsOfValue, BitVec.testBit_toNat, decide_eq_false hc]
  congr 1
  rw [Bool.eq_iff_iff, decide_eq_true_iff, beq_iff_eq, BitVec.toNat_eq]
  rfl

/-! The flags in F. -/

/-- A flag of the three computed ones. -/
def FlagBits.get (b : FlagBits) : Flag → Bool
  | .c => b.c
  | .m => b.m
  | .z => b.z

theorem flagMaskOf_ne_zero {k : FlagMasks} (h : k.wellFormed = true) (x : Flag) : flagMaskOf k x ≠ 0 := by
  simp only [FlagMasks.wellFormed, Bool.and_eq_true, bne_iff_ne] at h
  obtain ⟨⟨⟨⟨⟨hc, hm⟩, hz⟩, -⟩, -⟩, -⟩ := h
  cases x with
  | c => exact hc
  | m => exact hm
  | z => exact hz

theorem flagMaskOf_and {k : FlagMasks} (h : k.wellFormed = true) {x y : Flag} (hxy : x ≠ y) :
    flagMaskOf k x &&& flagMaskOf k y = 0 := by
  simp only [FlagMasks.wellFormed, Bool.and_eq_true, beq_iff_eq] at h
  obtain ⟨⟨⟨-, hcm⟩, hcz⟩, hmz⟩ := h
  have hsymm : ∀ {a b : Cell}, a &&& b = 0 → b &&& a = 0 := fun hab => by rwa [BitVec.and_comm]
  match x, y with
  | .c, .c | .m, .m | .z, .z => exact absurd rfl hxy
  | .c, .m => exact hcm
  | .c, .z => exact hcz
  | .m, .z => exact hmz
  | .m, .c => exact hsymm hcm
  | .z, .c => exact hsymm hcz
  | .z, .m => exact hsymm hmz

/-- No bit belongs to two flags. -/
theorem flagMaskOf_disjoint {k : FlagMasks} (h : k.wellFormed = true) {x y : Flag} (hxy : x ≠ y) {i : Nat}
    (hi : (flagMaskOf k x).getLsbD i = true) : (flagMaskOf k y).getLsbD i = false := by
  have hbit := congrArg (BitVec.getLsbD · i) (flagMaskOf_and h hxy)
  simpa [hi] using hbit

/-- A flag is read off F under its mask. -/
theorem flagSet_eq_of_and {k : FlagMasks} {f : Cell} {x : Flag} {b : Bool} (h : k.wellFormed = true)
    (hf : f &&& flagMaskOf k x = if b then flagMaskOf k x else 0) : flagSet k f x = b := by
  rw [flagSet, hf]
  cases b with
  | true => exact bne_iff_ne.mpr (flagMaskOf_ne_zero h x)
  | false => exact bne_self_eq_false 0

theorem flagWrite_getLsbD (k : FlagMasks) (f : Cell) (b : FlagBits) {i : Nat} (hi : i < 6) :
    (flagWrite k f b).getLsbD i =
      ((f.getLsbD i && !(k.c.getLsbD i || k.m.getLsbD i || k.z.getLsbD i)) ||
        (b.c && k.c.getLsbD i) || (b.m && k.m.getLsbD i) || (b.z && k.z.getLsbD i)) := by
  simp only [flagWrite, flagMaskAll, BitVec.getLsbD_or, BitVec.getLsbD_and, BitVec.getLsbD_not, hi, decide_true,
    Bool.true_and]
  cases b.c <;> cases b.m <;> cases b.z <;> simp

/-- Under its own mask F shows the written flag alone, since no other mask meets it. -/
theorem flagWrite_and {k : FlagMasks} (h : k.wellFormed = true) (f : Cell) (b : FlagBits) (x : Flag) :
    flagWrite k f b &&& flagMaskOf k x = if b.get x then flagMaskOf k x else 0 := by
  apply BitVec.eq_of_getLsbD_eq
  intro i hi
  rw [BitVec.getLsbD_and, flagWrite_getLsbD k f b hi]
  cases hx : (flagMaskOf k x).getLsbD i with
  | false => cases b.get x <;> simp [hx]
  | true =>
    have hbits : ∀ y, (flagMaskOf k y).getLsbD i = decide (x = y) := by
      intro y
      by_cases hxy : x = y
      · subst hxy
        rw [hx, decide_eq_true rfl]
      · rw [flagMaskOf_disjoint h hxy hx, decide_eq_false hxy]
    have hshown : (if b.get x then flagMaskOf k x else 0).getLsbD i = b.get x := by
      cases b.get x <;> simp [hx]
    rw [hshown, show k.c.getLsbD i = _ from hbits .c, show k.m.getLsbD i = _ from hbits .m,
      show k.z.getLsbD i = _ from hbits .z]
    cases x <;> simp [FlagBits.get]

theorem flagSet_flagWrite {k : FlagMasks} (h : k.wellFormed = true) (f : Cell) (b : FlagBits) (x : Flag) :
    flagSet k (flagWrite k f b) x = b.get x :=
  flagSet_eq_of_and h (flagWrite_and h f b x)

/-- The flag write keeps the bits outside the masks. -/
theorem flagWrite_and_not (k : FlagMasks) (f : Cell) (b : FlagBits) :
    flagWrite k f b &&& ~~~(k.c ||| k.m ||| k.z) = f &&& ~~~(k.c ||| k.m ||| k.z) := by
  apply BitVec.eq_of_getLsbD_eq
  intro i hi
  simp only [BitVec.getLsbD_and, flagWrite_getLsbD k f b hi, BitVec.getLsbD_not, BitVec.getLsbD_or, hi, decide_true,
    Bool.true_and]
  cases k.c.getLsbD i <;> cases k.m.getLsbD i <;> cases k.z.getLsbD i <;> simp

/-- Settles O30: the masks are disjoint, and their union is what the write clears and sets. -/
theorem flagWriteSetsTheFlagsAndKeepsTheRest : Obligations.FlagWriteSetsTheFlagsAndKeepsTheRest :=
  fun k f b h => ⟨flagSet_flagWrite h f b .c, flagSet_flagWrite h f b .m, flagSet_flagWrite h f b .z,
    flagWrite_and_not k f b⟩

theorem flagStore_getLsbD (k : FlagMasks) (f : Cell) (x : Flag) (v : Cell) {i : Nat} (hi : i < 6) :
    (flagStore k f x v).getLsbD i =
      if (flagMaskOf k x).getLsbD i then v != 0 else f.getLsbD i := by
  unfold flagStore
  cases v != 0 with
  | true =>
    rw [if_pos rfl, BitVec.getLsbD_or]
    cases (flagMaskOf k x).getLsbD i <;> simp
  | false =>
    rw [if_neg Bool.false_ne_true, BitVec.getLsbD_and, BitVec.getLsbD_not]
    cases (flagMaskOf k x).getLsbD i <;> simp [hi]

theorem flagStore_and_same (k : FlagMasks) (f : Cell) (x : Flag) (v : Cell) :
    flagStore k f x v &&& flagMaskOf k x = if v != 0 then flagMaskOf k x else 0 := by
  apply BitVec.eq_of_getLsbD_eq
  intro i hi
  rw [BitVec.getLsbD_and, flagStore_getLsbD k f x v hi]
  cases v != 0 <;> cases hx : (flagMaskOf k x).getLsbD i <;> simp [hx]

/-- A write of one flag is not seen under any mask that does not meet its own. -/
theorem flagStore_and_of_disjoint (k : FlagMasks) (f : Cell) (x : Flag) (v : Cell) {m : Cell}
    (hm : ∀ i, (flagMaskOf k x).getLsbD i = true → m.getLsbD i = false) :
    flagStore k f x v &&& m = f &&& m := by
  apply BitVec.eq_of_getLsbD_eq
  intro i hi
  rw [BitVec.getLsbD_and, BitVec.getLsbD_and, flagStore_getLsbD k f x v hi]
  cases hx : (flagMaskOf k x).getLsbD i with
  | false => rfl
  | true => rw [hm i hx, Bool.and_false, Bool.and_false]

/-- Every flag's mask lies in their union. -/
theorem flagMaskOf_not_union (k : FlagMasks) (x : Flag) {i : Nat} (hx : (flagMaskOf k x).getLsbD i = true) :
    (~~~(k.c ||| k.m ||| k.z)).getLsbD i = false := by
  cases x with
  | c => simp [show k.c.getLsbD i = true from hx]
  | m => simp [show k.m.getLsbD i = true from hx]
  | z => simp [show k.z.getLsbD i = true from hx]

/-- Settles O31: the write sets or clears the one mask, which meets neither another flag's nor the complement of
their union. -/
theorem flagTargetChangesOneFlag : Obligations.FlagTargetChangesOneFlag := by
  intro k f v x y h
  refine ⟨flagSet_eq_of_and h (flagStore_and_same k f x v), fun hyx => ?other,
    flagStore_and_of_disjoint k f x v fun _ => flagMaskOf_not_union k x⟩
  case other =>
    have hdisjoint : ∀ i, (flagMaskOf k x).getLsbD i = true → (flagMaskOf k y).getLsbD i = false :=
      fun _ => flagMaskOf_disjoint h (Ne.symm hyx)
    rw [flagSet, flagSet, flagStore_and_of_disjoint k f x v hdisjoint]

/-! The ALU. -/

/-- Storing modulo 64 is addition of cells. -/
theorem mask6_add (a b : Cell) : mask6 ((a.toNat : Int) + (b.toNat : Int)) = a + b := by
  rw [mask6, BitVec.ofInt_add, ← mask6, ← mask6, mask6_toNat, mask6_toNat]

theorem mask6_sub (a b : Cell) : mask6 ((a.toNat : Int) - (b.toNat : Int)) = a - b := by
  rw [mask6, Int.sub_eq_add_neg, BitVec.ofInt_add, BitVec.ofInt_neg, ← mask6, ← mask6, mask6_toNat, mask6_toNat,
    BitVec.sub_eq_add_neg]

/-- Bit 5 of a sum that has not been masked is bit 5 of the stored sum. -/
theorem testBit_toNat_add (a b : Cell) : (a.toNat + b.toNat).testBit 5 = (a + b).getLsbD 5 := by
  rw [← BitVec.testBit_toNat, BitVec.toNat_add, Nat.testBit_mod_two_pow]
  rfl

theorem aluAdd_flags (a b : Cell) :
    (aluAdd a b).flags = ⟨decide (64 ≤ a.toNat + b.toNat), (a + b).getLsbD 5, decide (a = 0 ∧ b = 0)⟩ := by
  have hzero : a.toNat + b.toNat = 0 ↔ a = 0 ∧ b = 0 := by
    rw [Nat.add_eq_zero_iff, BitVec.toNat_eq, BitVec.toNat_eq]
    rfl
  rw [aluAdd, ofPreMask_flags, ← Int.natCast_add, flagRule_natCast, testBit_toNat_add]
  simp only [hzero]

/-- SUB borrows exactly when the target is the smaller, and M is then set whatever bit 5 is. -/
theorem aluSub_flags (a b : Cell) :
    (aluSub a b).flags =
      ⟨decide (a.toNat < b.toNat), decide (a.toNat < b.toNat) || (a - b).getLsbD 5, decide (a = b)⟩ := by
  rw [aluSub, ofPreMask_flags]
  by_cases hlt : a.toNat < b.toNat
  · have hne : a ≠ b := fun h => absurd hlt (by rw [h]; exact Nat.lt_irrefl _)
    rw [flagRule_of_neg (by omega), decide_eq_true hlt, decide_eq_false hne, Bool.true_or]
  · have hle : b ≤ a := by rw [BitVec.le_def]; omega
    have hrange : ¬ 64 ≤ (a - b).toNat := by have := (a - b).isLt; omega
    have hzero : (a - b).toNat = 0 ↔ a = b := by rw [BitVec.toNat_sub_of_le hle, BitVec.toNat_eq]; omega
    have hcast : (a.toNat : Int) - (b.toNat : Int) = ((a - b).toNat : Int) := by
      rw [BitVec.toNat_sub_of_le hle]; omega
    rw [hcast, flagRule_natCast, decide_eq_false hlt, decide_eq_false hrange, BitVec.testBit_toNat,
      Bool.false_or]
    simp only [hzero]

theorem aluInc_eq_aluAdd (a : Cell) : aluInc a = aluAdd a 1 := rfl

theorem aluDec_eq_aluSub (a : Cell) : aluDec a = aluSub a 1 := rfl

theorem xor_seventySeven (a : Cell) : a ^^^ 0o77 = ~~~a := BitVec.xor_allOnes

/-- INC carries out of 63 alone and never answers 0 before masking. -/
theorem aluInc_flags (a : Cell) : (aluInc a).flags = ⟨a == 63, (a + 1).getLsbD 5, false⟩ := by
  have hcarry : 64 ≤ a.toNat + (1 : Cell).toNat ↔ a = 63 := by
    have := a.isLt
    rw [BitVec.toNat_eq]
    change 64 ≤ a.toNat + 1 ↔ a.toNat = 63
    omega
  have hzero : ¬ (a = 0 ∧ (1 : Cell) = 0) := fun h => absurd h.2 (by decide)
  rw [aluInc_eq_aluAdd, aluAdd_flags, decide_eq_false hzero, decide_eq_decide.mpr hcarry]
  rfl

/-- DEC borrows from 0 alone, where it stores 63, whose bit 5 is set. -/
theorem aluDec_flags (a : Cell) : (aluDec a).flags = ⟨a == 0, (a - 1).getLsbD 5, a == 1⟩ := by
  have hborrow : a.toNat < (1 : Cell).toNat ↔ a = 0 := by
    rw [BitVec.toNat_eq]
    change a.toNat < 1 ↔ a.toNat = 0
    omega
  have hminus : (decide (a = 0) || (a - 1).getLsbD 5) = (a - 1).getLsbD 5 := by
    by_cases h : a = 0
    · subst h; rfl
    · rw [decide_eq_false h, Bool.false_or]
  rw [aluDec_eq_aluSub, aluSub_flags, decide_eq_decide.mpr hborrow, hminus]
  rfl

/-- ROL shifts the target up and puts C in bit 0. -/
theorem aluRol_value : ∀ (a : Cell) (cin : Bool),
    (aluRol a cin).value = BitVec.ofNat 6 (a.toNat * 2 + cin.toNat) := by decide

/-- ROR shifts the target down and puts C in bit 5. -/
theorem aluRor_value : ∀ (a : Cell) (cin : Bool),
    (aluRor a cin).value = BitVec.ofNat 6 (a.toNat / 2 + 32 * cin.toNat) := by decide

theorem aluRol_value_bit5 (a : Cell) (cin : Bool) : (aluRol a cin).value.getLsbD 5 = a.getLsbD 4 := by
  cases cin <;> simp [aluRol, carryCell]

theorem aluRor_value_bit5 (a : Cell) (cin : Bool) : (aluRor a cin).value.getLsbD 5 = cin := by
  cases cin <;> simp [aluRor, carryCell]

/-- A rotate's flags: C is the bit rotated out, M and Z are those of the stored value. -/
theorem ofRotated_flags_eq (v : Cell) (carry : Bool) :
    (AluResult.ofRotated v carry).flags = ⟨carry, v.getLsbD 5, decide (v.toNat = 0)⟩ := by
  rw [ofRotated_flags, flagRuleWithCarry, flagRule_natCast, BitVec.testBit_toNat]

theorem aluRol_flags (a : Cell) (cin : Bool) :
    (aluRol a cin).flags = ⟨a.getLsbD 5, a.getLsbD 4, decide ((a.toNat * 2 + cin.toNat) % 64 = 0)⟩ := by
  have hvalue := aluRol_value a cin
  have hbit := aluRol_value_bit5 a cin
  rw [aluRol, ofRotated_value] at hvalue hbit
  rw [aluRol, ofRotated_flags_eq, hbit, hvalue, BitVec.toNat_ofNat]

theorem ror_range (a : Cell) (cin : Bool) : a.toNat / 2 + 32 * cin.toNat < 64 := by
  have := a.isLt
  have := cin.toNat_le
  omega

theorem aluRor_flags (a : Cell) (cin : Bool) :
    (aluRor a cin).flags = ⟨a.getLsbD 0, cin, decide (a.toNat / 2 + 32 * cin.toNat = 0)⟩ := by
  have hvalue := aluRor_value a cin
  have hbit := aluRor_value_bit5 a cin
  rw [aluRor, ofRotated_value] at hvalue hbit
  rw [aluRor, ofRotated_flags_eq, hbit, hvalue, cell_ofNat_toNat (ror_range a cin)]

/-- An answer that follows the flag rule on its pre-mask result in M and Z, stores it modulo 64 and lies in the
range of the block (42_alu.md R202). -/
structure FollowsRule (r : AluResult) : Prop where
  low : -63 ≤ r.preMask
  high : r.preMask ≤ 126
  value : r.value = mask6 r.preMask
  minus : r.flags.m = (flagRule r.preMask).m
  zero : r.flags.z = (flagRule r.preMask).z

theorem ofPreMask_followsRule {r : Int} (hlow : -63 ≤ r) (hhigh : r ≤ 126) :
    FollowsRule (.ofPreMask r) := ⟨hlow, hhigh, rfl, rfl, rfl⟩

theorem ofPreMask_toNat_followsRule (v : Cell) : FollowsRule (.ofPreMask v.toNat) := by
  have := v.isLt
  exact ofPreMask_followsRule (by omega) (by omega)

theorem ofRotated_followsRule (v : Cell) (carry : Bool) : FollowsRule (.ofRotated v carry) := by
  have := v.isLt
  exact ⟨by rw [ofRotated_preMask]; omega, by rw [ofRotated_preMask]; omega, (mask6_toNat v).symm, rfl, rfl⟩

/-- Every class of the block follows the rule. -/
theorem alu_followsRule (a b : Cell) (cin : Bool) :
    ∀ r ∈ [aluAdd a b, aluSub a b, aluAnd a b, aluOr a b, aluXor a b, aluNot a, aluInc a, aluDec a,
      aluRol a cin, aluRor a cin], FollowsRule r := by
  have ha := a.isLt
  have hb := b.isLt
  simp only [List.forall_mem_cons, List.not_mem_nil, false_imp_iff, implies_true, and_true]
  exact ⟨ofPreMask_followsRule (by omega) (by omega), ofPreMask_followsRule (by omega) (by omega),
    ofPreMask_toNat_followsRule _, ofPreMask_toNat_followsRule _, ofPreMask_toNat_followsRule _,
    ofPreMask_toNat_followsRule _, ofPreMask_followsRule (by omega) (by omega),
    ofPreMask_followsRule (by omega) (by omega), ofRotated_followsRule _ _, ofRotated_followsRule _ _⟩

theorem aluNot_preMask (a : Cell) : (aluNot a).preMask = 63 - (a.toNat : Int) := by
  have := a.isLt
  rw [aluNot, ofPreMask_preMask, xor_seventySeven, BitVec.toNat_not]
  omega

theorem aluRol_preMask (a : Cell) (cin : Bool) :
    (aluRol a cin).preMask = ((a.toNat * 2 + cin.toNat) % 64 : Nat) := by
  have hvalue := aluRol_value a cin
  rw [aluRol, ofRotated_value] at hvalue
  rw [aluRol, ofRotated_preMask, hvalue, BitVec.toNat_ofNat]

theorem aluRor_preMask (a : Cell) (cin : Bool) :
    (aluRor a cin).preMask = (a.toNat / 2 + 32 * cin.toNat : Nat) := by
  have hvalue := aluRor_value a cin
  rw [aluRor, ofRotated_value] at hvalue
  rw [aluRor, ofRotated_preMask, hvalue, cell_ofNat_toNat (ror_range a cin)]

/-- Settles O58: the eight classes that mask a result answer the flag rule on it; the two rotates store their
result, and replace C by the bit rotated out. -/
theorem aluBlockOutputsThePreMaskResult : Obligations.AluBlockOutputsThePreMaskResult := by
  intro a b cin
  refine ⟨fun r hr => ?rule, ?carry, rfl, rfl, rfl, rfl, ?and, ?or, ?xor, aluNot_preMask a, rfl, rfl,
    aluRol_preMask a cin, aluRor_preMask a cin⟩
  case rule =>
    obtain ⟨hlow, hhigh, hvalue, hminus, hzero⟩ := alu_followsRule a b cin r hr
    exact ⟨hlow, hhigh, hvalue, hminus, hzero⟩
  case carry =>
    simp only [List.forall_mem_cons, List.not_mem_nil, false_imp_iff, implies_true, and_true]
    exact ⟨rfl, rfl, rfl, rfl, rfl, rfl, rfl, rfl⟩
  case and => rw [aluAnd, ofPreMask_preMask, BitVec.toNat_and]
  case or => rw [aluOr, ofPreMask_preMask, BitVec.toNat_or]
  case xor => rw [aluXor, ofPreMask_preMask, BitVec.toNat_xor]

/-! Rotating. -/

/-- ROL undoes ROR: each puts back in C, or at the end of the target, the bit the other took out. -/
theorem rol_ror : ∀ (v : Cell) (c : Bool), rotateStep aluRol (rotateStep aluRor (v, c)) = (v, c) := by decide

theorem ror_rol : ∀ (v : Cell) (c : Bool), rotateStep aluRor (rotateStep aluRol (v, c)) = (v, c) := by decide

/-- The six bits and C are seven places in a ring. -/
theorem rol_seven : ∀ (v : Cell) (c : Bool), (rotateStep aluRol)^[7] (v, c) = (v, c) := by decide

theorem ror_leftInverse_rol : Function.LeftInverse (rotateStep aluRor) (rotateStep aluRol) :=
  fun p => ror_rol p.1 p.2

/-- Settles O33: rotating right seven times undoes rotating left seven times, which changes nothing. -/
theorem sevenRotatesRestoreTargetAndCarry : Obligations.SevenRotatesRestoreTargetAndCarry := by
  rintro ⟨v, c⟩
  refine ⟨rol_seven v c, ?_, rol_ror v c, ror_rol v c⟩
  calc (rotateStep aluRor)^[7] (v, c)
      = (rotateStep aluRor)^[7] ((rotateStep aluRol)^[7] (v, c)) := by rw [rol_seven]
    _ = (v, c) := ror_leftInverse_rol.iterate 7 (v, c)

end Sys2Proof.Machine
end

section
/-! The phases of an instruction against the terms of the statements: resolution, FLAGS with WRITEBACK, and the
three skeletons, each with its faults (40_step_fsm.md R146 to R157). -/

namespace Sys2Proof.Machine

open Sys2Proof.Claims

/-! Resolution. -/

theorem srcValue_eq_none_iff (o : Operands) (s : State) : srcValue o s = none ↔ o.source = .none := by
  unfold srcValue
  cases o.source <;> simp

/-- Settles O26, mode by mode. -/
theorem sourceModesReadTheirOperands : Obligations.SourceModesReadTheirOperands := by
  intro o s
  refine ⟨(srcValue_eq_none_iff o s).mpr, fun h => ?_, fun h => ?_, fun h => ?_, fun h => ?_, fun k h => ?_,
    fun r h => ?_, fun x h => ?_⟩
  all_goals rw [srcValue, h]
  rfl

/-- Settles O27, mode by mode. -/
theorem targetModesNameTheirLocations : Obligations.TargetModesNameTheirLocations := by
  intro o s
  refine ⟨fun h => ?_, fun h => ?_, fun h => ?_, fun h => ?_, fun h => ?_, fun k h => ?_, fun r h => ?_,
    fun x h => ?_⟩
  all_goals rw [tgtLoc, h]

/-- A register location comes from a register mode alone. -/
theorem tgtLoc_eq_reg {o : Operands} {s : State} {r : Reg} (h : tgtLoc o s = .reg r) : o.target = .reg r := by
  unfold tgtLoc at h
  cases ht : o.target <;> rw [ht] at h <;> cases h
  rfl

theorem tgtLoc_eq_flag {o : Operands} {s : State} {x : Flag} (h : tgtLoc o s = .flag x) : o.target = .flag x := by
  unfold tgtLoc at h
  cases ht : o.target <;> rw [ht] at h <;> cases h
  rfl

/-- The fetch passes one cell, or two. -/
theorem fetchI_eq (o : Operands) (s : State) : s.regI + BitVec.ofNat 6 o.length = postFetchI o s := by
  rw [postFetchI, Operands.length]
  cases o.takesImmediate <;> rfl

theorem advance_eq_fetched (o : Operands) (s : State) : s.advance o = fetched o s := by
  rw [State.advance, fetchI_eq, fetched]

theorem stackAdjust_eq_adjusted (o : Operands) (s : State) :
    (s.advance o).stackAdjust o.sideEffect = adjusted o s := by
  rw [advance_eq_fetched, adjusted, fetched]
  cases o.sideEffect <;> rfl

theorem adjusted_restKept (o : Operands) (s : State) : RestKept s (adjusted o s) :=
  ⟨rfl, rfl, rfl, rfl, rfl, rfl, rfl⟩

theorem adjusted_read (o : Operands) (s : State) (a : Cell) : (adjusted o s).read a = s.read a := rfl

/-! FLAGS and WRITEBACK. -/

theorem restKept_trans {s t u : State} (h : RestKept s t) (k : RestKept t u) : RestKept s u :=
  SameRest.trans h k

theorem putFlags_regF (s : State) (fl : Option FlagBits) : (s.putFlags fl).regF = flagsPut s fl := by
  cases fl <;> rfl

theorem putFlags_reg (s : State) (fl : Option FlagBits) (r : Reg) :
    (s.putFlags fl).reg r = if r = .f then flagsPut s fl else s.reg r := by
  by_cases h : r = .f
  · subst h; exact putFlags_regF s fl
  · rw [putFlags_reg_of_ne_f s fl h, if_neg h]

theorem flagStore_eq (k : FlagMasks) (f : Cell) (x : Flag) (v : Cell) :
    flagStore k f x v = if v = 0 then f &&& ~~~(flagMaskOf k x) else f ||| flagMaskOf k x := by
  by_cases h : v = 0 <;> simp [flagStore, h]

/-- What FLAGS and WRITEBACK leave: the registers, the cells and the rest as the statements describe them. -/
structure WriteDone (s u : State) (fl : Option FlagBits) (loc : Loc) (v : Cell) : Prop where
  reg : ∀ r, u.reg r = regWritten s fl loc v r
  read : ∀ a, u.read a = cellWritten s loc v a
  rest : RestKept s u

theorem setReg_writeDone (s : State) (fl : Option FlagBits) (q : Reg) (v : Cell) :
    WriteDone s ((s.putFlags fl).setReg q v) fl (.reg q) v where
  reg r := by rw [setReg_reg, putFlags_reg, regWritten]
  read a := by rw [setReg_read, putFlags_read, cellWritten]
  rest := (putFlags_sameRest s fl).trans (setReg_sameRest _ q v)

theorem setFlag_writeDone (s : State) (fl : Option FlagBits) (x : Flag) (v : Cell) :
    WriteDone s ((s.putFlags fl).setFlag x v) fl (.flag x) v where
  reg r := by
    rw [setFlag_reg, putFlags_regF, putFlags_cfg, putFlags_reg, flagStore_eq, regWritten]
    by_cases h : r = .f
    · rw [if_pos h, if_pos h]
    · rw [if_neg h, if_neg h, if_neg h]
  read a := by rw [setFlag_read, putFlags_read, cellWritten]
  rest := (putFlags_sameRest s fl).trans (setFlag_sameRest _ x v)

/-- A program cell keeps its value: only the flags are written. -/
theorem putFlags_writeDone (s : State) (fl : Option FlagBits) {a : Cell} (v : Cell) (h : isProgram a = true) :
    WriteDone s (s.putFlags fl) fl (.mem a) v where
  reg := putFlags_reg s fl
  read b := by
    have hkept : b ≠ a ∨ 0o30 ≤ b.toNat := by
      by_cases hb : b = a
      · subst hb; exact .inr (isProgram_iff.mp h)
      · exact .inl hb
    rw [putFlags_read, cellWritten, if_pos hkept]
  rest := putFlags_sameRest s fl

/-- A cell below the program region takes the value, PORT the output bits of it. -/
theorem poke_writeDone (s : State) (fl : Option FlagBits) {a : Cell} (v : Cell) (h : isProgram a = false) :
    WriteDone s ((s.putFlags fl).poke a
      (if a = s.cfg.ioMap.port then portWritten (s.read a) (s.read s.cfg.ioMap.dir) v else v)) fl (.mem a) v where
  reg r := by rw [poke_reg, putFlags_reg]; rfl
  read b := by
    rw [poke_read, putFlags_read, cellWritten]
    by_cases hb : b = a
    · subst hb
      have hnot : ¬ (b ≠ b ∨ 0o30 ≤ b.toNat) := by
        rw [not_or, Nat.not_le]
        exact ⟨fun hne => hne rfl, isProgram_eq_false_iff.mp h⟩
      rw [if_pos rfl, if_neg hnot]
      rfl
    · rw [if_neg hb, if_pos (.inl hb)]
  rest := (putFlags_sameRest s fl).trans (poke_sameRest _ a _)

/-- FLAGS and WRITEBACK to a writable location. -/
theorem writeLoc_done {s : State} {loc : Loc} (fl : Option FlagBits) (v : Cell) (h : loc.writable s.cfg = true) :
    ∃ u, (s.putFlags fl).writeLoc v loc = .ok u ∧ WriteDone s u fl loc v := by
  rcases writeLoc_cases (s.putFlags fl) v loc with ⟨hnone, -⟩ | ⟨a, rfl, hp, hpolicy, -⟩ | ⟨a, rfl, hp, -, hok⟩ |
    ⟨a, rfl, hp, hok⟩ | ⟨r, rfl, hok⟩ | ⟨x, rfl, hok⟩
  · exact Bool.noConfusion (hnone.symm.trans (writable_readable h))
  · rw [putFlags_cfg] at hpolicy
    rw [Loc.writable, hp, hpolicy] at h
    cases h
  · exact ⟨_, hok, putFlags_writeDone s fl v hp⟩
  · rw [putFlags_read, putFlags_read, putFlags_cfg] at hok
    exact ⟨_, hok, poke_writeDone s fl v hp⟩
  · exact ⟨_, hok, setReg_writeDone s fl r v⟩
  · exact ⟨_, hok, setFlag_writeDone s fl x v⟩

/-! FLAGS to BASE_INC. -/

/-- With a write to a writable location. -/
theorem settle_writes {o : Operands} {loc : Loc} {e : Effect} {s : State} {v : Cell} (hw : e.write = some v)
    (h : loc.writable s.cfg = true) :
    ∃ u, settle o loc e s = .ok ((u.jumpTo e.jump).baseIncrement o.sideEffect) ∧
      WriteDone s u e.flags loc v := by
  obtain ⟨u, hu, hdone⟩ := writeLoc_done e.flags v h
  refine ⟨u, ?_, hdone⟩
  rw [settle, hw, State.writeback, hu]

/-- Without a write or flags. -/
theorem settle_nothing (o : Operands) (loc : Loc) (s : State) :
    settle o loc ⟨none, none, none⟩ s = .ok (s.baseIncrement o.sideEffect) := rfl

theorem settle_undefinedTarget {o : Operands} {loc : Loc} {e : Effect} {s : State} {v : Cell}
    (hw : e.write = some v) (h : loc.readable = false) : settle o loc e s = .error .undefinedTarget := by
  rw [settle, hw]
  cases loc with
  | imm | none => rfl
  | mem | reg | flag => cases h

theorem settle_promWrite {o : Operands} {e : Effect} {s : State} {a v : Cell} (hw : e.write = some v)
    (hp : isProgram a = true) (h : s.cfg.promWritePolicy = .fault) :
    settle o (.mem a) e s = .error .promWrite := by
  rw [settle, hw, State.writeback, State.writeLoc, memWrite_program_fault v hp (by rwa [putFlags_cfg])]

/-- The only faults from FLAGS on are those of the write. -/
theorem settle_error {o : Operands} {loc : Loc} {e : Effect} {s : State} {c : FaultCause}
    (h : settle o loc e s = .error c) :
    (c = .undefinedTarget ∧ loc.readable = false) ∨
      (c = .promWrite ∧ s.cfg.promWritePolicy = .fault ∧ ∃ a, loc = .mem a ∧ isProgram a = true) := by
  cases hw : e.write with
  | none =>
    rw [settle, hw, State.writeback] at h
    cases h
  | some v =>
    rw [settle, hw, State.writeback] at h
    rcases writeLoc_cases (s.putFlags e.flags) v loc with ⟨hnone, hres⟩ | ⟨a, rfl, hp, hpolicy, hres⟩ |
      ⟨a, -, -, -, hres⟩ | ⟨a, -, -, hres⟩ | ⟨r, -, hres⟩ | ⟨x, -, hres⟩ <;> rw [hres] at h <;> cases h
    · exact .inl ⟨rfl, hnone⟩
    · exact .inr ⟨rfl, by rwa [putFlags_cfg] at hpolicy, a, rfl, hp⟩

/-- Without flags, F changes only through F or a flag. -/
theorem settle_regF {o : Operands} {loc : Loc} {e : Effect} {s t : State} (hfl : e.flags = none)
    (h : settle o loc e s = .ok t) : t.regF = s.regF ∨ loc = .reg .f ∨ ∃ x, loc = .flag x := by
  obtain ⟨u, hu, rfl⟩ := settle_ok h
  rw [hfl, putFlags_none] at hu
  rw [baseIncrement_regF, jumpTo_regF]
  cases hw : e.write with
  | none =>
    rw [hw] at hu
    cases hu
    exact .inl rfl
  | some v =>
    rw [hw, State.writeback] at hu
    rcases writeLoc_cases s v loc with ⟨-, hres⟩ | ⟨a, -, -, -, hres⟩ | ⟨a, -, -, -, hres⟩ | ⟨a, -, -, hres⟩ |
      ⟨r, rfl, hres⟩ | ⟨x, rfl, hres⟩ <;> rw [hres] at hu <;> cases hu
    · exact .inl rfl
    · exact .inl (poke_regF _ _ _)
    · cases r with
      | f => exact .inr (.inl rfl)
      | a | b | i | s => exact .inl rfl
    · exact .inr (.inr ⟨x, rfl⟩)

/-! The skeletons of the classes. -/

theorem withSource_none {o : Operands} {s : State} {eff : Cell → State → Effect} (h : o.source = .none) :
    withSource o s eff = .error .undefinedSource := by
  rw [withSource, (srcValue_eq_none_iff o _).mpr h]

theorem withSource_some {o : Operands} {s : State} {v : Cell} (eff : Cell → State → Effect)
    (h : sourceValue o s = some v) :
    withSource o s eff = settle o (targetLoc o s) (eff v (adjusted o s)) (adjusted o s) := by
  rw [sourceValue, ← advance_eq_fetched] at h
  rw [withSource, h, stackAdjust_eq_adjusted, targetLoc]

theorem withTarget_none {o : Operands} {s : State} {eff : Cell → State → Effect}
    (h : (targetLoc o s).readable = false) : withTarget o s eff = .error .undefinedTarget := by
  rw [targetLoc] at h
  rw [withTarget, stackAdjust_eq_adjusted, (readLoc_none _ _).mpr h]

theorem withTarget_some {o : Operands} {s : State} {tv : Cell} (eff : Cell → State → Effect)
    (h : targetValue o s = some tv) :
    withTarget o s eff = settle o (targetLoc o s) (eff tv (adjusted o s)) (adjusted o s) := by
  rw [targetValue, targetLoc] at h
  rw [withTarget, stackAdjust_eq_adjusted, h, targetLoc]

theorem withBoth_none {o : Operands} {s : State} {eff : Cell → Cell → Effect} (h : o.source = .none) :
    withBoth o s eff = .error .undefinedSource := by
  rw [withBoth, (srcValue_eq_none_iff o _).mpr h]

theorem withBoth_some {o : Operands} {s : State} {v : Cell} (eff : Cell → Cell → Effect)
    (h : sourceValue o s = some v) : withBoth o s eff = withTarget o s fun tv _ => eff tv v := by
  rw [sourceValue, ← advance_eq_fetched] at h
  rw [withBoth, h]

/-- A source other than `None` has a value. -/
theorem sourceValue_some {o : Operands} (s : State) (h : o.source ≠ .none) : ∃ v, sourceValue o s = some v :=
  Option.ne_none_iff_exists'.mp fun hnone => h ((srcValue_eq_none_iff o _).mp hnone)

/-! Where a fault comes from. -/

/-- The faults of a target: no location, and a program cell under the policy `fault`. -/
def TargetFault (o : Operands) (s : State) (c : FaultCause) : Prop :=
  (c = .undefinedTarget ∧ (targetLoc o s).readable = false) ∨
    (c = .promWrite ∧ s.cfg.promWritePolicy = .fault ∧ ∃ a, targetLoc o s = .mem a ∧ isProgram a = true)

theorem withSource_error {o : Operands} {s : State} {eff : Cell → State → Effect} {c : FaultCause}
    (h : withSource o s eff = .error c) :
    (o.source = .none ∧ c = .undefinedSource) ∨ (o.source ≠ .none ∧ TargetFault o s c) := by
  by_cases hnone : o.source = .none
  · rw [withSource_none hnone] at h
    cases h
    exact .inl ⟨hnone, rfl⟩
  · obtain ⟨v, hv⟩ := sourceValue_some s hnone
    rw [withSource_some eff hv] at h
    exact .inr ⟨hnone, settle_error (s := adjusted o s) h⟩

theorem withTarget_error {o : Operands} {s : State} {eff : Cell → State → Effect} {c : FaultCause}
    (h : withTarget o s eff = .error c) : TargetFault o s c := by
  cases htv : targetValue o s with
  | none =>
    have hnone := (readLoc_none _ _).mp htv
    rw [withTarget_none hnone] at h
    cases h
    exact .inl ⟨rfl, hnone⟩
  | some tv =>
    rw [withTarget_some eff htv] at h
    exact settle_error (s := adjusted o s) h

theorem withBoth_error {o : Operands} {s : State} {eff : Cell → Cell → Effect} {c : FaultCause}
    (h : withBoth o s eff = .error c) :
    (o.source = .none ∧ c = .undefinedSource) ∨ (o.source ≠ .none ∧ TargetFault o s c) := by
  by_cases hnone : o.source = .none
  · rw [withBoth_none hnone] at h
    cases h
    exact .inl ⟨hnone, rfl⟩
  · obtain ⟨v, hv⟩ := sourceValue_some s hnone
    rw [withBoth_some eff hv] at h
    exact .inr ⟨hnone, withTarget_error h⟩

/-- Everything the phases of an instruction can fault by: a used source `None` first, else the target. -/
theorem phasesOf_error {i : Instr} {s : State} {c : FaultCause} (h : phasesOf i s = .error c) :
    (usesSource i.cls = true ∧ i.operands.source = .none ∧ c = .undefinedSource) ∨
      ((usesSource i.cls = true → i.operands.source ≠ .none) ∧ TargetFault i.operands s c) := by
  cases i with
  | stop o | nop o => cases h
  | load o | push o | pop o | jmp o | jz o | jnz o | jc o | jnc o | jm o | jnm o | call o | ret o =>
    simp only [phasesOf, jumpIf] at h
    rcases withSource_error h with ⟨hnone, hc⟩ | ⟨hsome, htarget⟩
    · exact .inl ⟨rfl, hnone, hc⟩
    · exact .inr ⟨fun _ => hsome, htarget⟩
  | add o | sub o | and o | or o | xor o =>
    rcases withBoth_error h with ⟨hnone, hc⟩ | ⟨hsome, htarget⟩
    · exact .inl ⟨rfl, hnone, hc⟩
    · exact .inr ⟨fun _ => hsome, htarget⟩
  | not o | inc o | dec o | rol o | ror o =>
    simp only [phasesOf] at h
    exact .inr ⟨Bool.noConfusion, withTarget_error h⟩

/-- What `exec` leaves in status FAULT is the fault entry of a fault of its phases. -/
theorem exec_faulted {i : Instr} {s t : State} {r : FaultRecord} (hrun : s.status = .run)
    (hexec : exec i s = .next t) (hr : t.status = .fault r) :
    ∃ c, phasesOf i s = .error c ∧ r = ⟨c, i.operands.opcode, s.regI⟩ := by
  rcases exec_cases i s with ⟨u, -, hnext, hkeep⟩ | ⟨c, hphases, hnext⟩ <;> rw [hnext] at hexec <;> cases hexec
  · rw [hkeep.status, hrun] at hr
    cases hr
  · rw [takeFault_status] at hr
    cases hr
    exact ⟨c, hphases, rfl⟩

/-- Settles O11: the causes are those of the phases, in their order. -/
theorem everyFaultHasACauseOfTheTable : Obligations.EveryFaultHasACauseOfTheTable := by
  intro i s t r hrun hexec hr
  obtain ⟨c, hphases, rfl⟩ := exec_faulted hrun hexec hr
  refine ⟨rfl, rfl, ?_⟩
  rcases phasesOf_error hphases with ⟨huses, hnone, rfl⟩ |
    ⟨hsome, ⟨rfl, hnowhere⟩ | ⟨rfl, hpolicy, a, hloc, hprogram⟩⟩
  · exact ⟨huses, hnone⟩
  · exact ⟨hsome, hnowhere⟩
  · exact ⟨hsome, hpolicy, a, hloc, isProgram_iff.mp hprogram⟩

/-- Settles O12: the phases keep the configuration and t, and so does the fault entry. -/
theorem everyInstructionAnswersANextState : Obligations.EveryInstructionAnswersANextState := by
  intro i s
  rcases exec_cases i s with ⟨t, -, hnext, hkeep⟩ | ⟨c, -, hnext⟩
  · exact ⟨t, hnext, hkeep.cfg, hkeep.tick⟩
  · exact ⟨_, hnext, takeFault_cfg _ _ _ _, takeFault_tick _ _ _ _⟩

theorem withSource_regF {o : Operands} {s t : State} {eff : Cell → State → Effect}
    (hfl : ∀ v u, (eff v u).flags = none) (h : withSource o s eff = .ok t) :
    t.regF = s.regF ∨ o.target = .reg .f ∨ ∃ x, o.target = .flag x := by
  by_cases hnone : o.source = .none
  · rw [withSource_none hnone] at h
    cases h
  · obtain ⟨v, hv⟩ := sourceValue_some s hnone
    rw [withSource_some eff hv] at h
    rcases settle_regF (hfl v _) h with hF | hloc | ⟨x, hloc⟩
    · exact .inl hF
    · exact .inr (.inl (tgtLoc_eq_reg hloc))
    · exact .inr (.inr ⟨x, tgtLoc_eq_flag hloc⟩)

/-- A class that writes no flags leaves F to its target. -/
theorem phasesOf_regF {i : Instr} {s t : State} (hclass : writesFlags i.cls = false)
    (h : phasesOf i s = .ok t) :
    t.regF = s.regF ∨ i.operands.target = .reg .f ∨ ∃ x, i.operands.target = .flag x := by
  cases i with
  | stop o => cases h; exact .inl rfl
  | nop o =>
    cases h
    rw [baseIncrement_regF, stackAdjust_regF, advance_regF]
    exact .inl rfl
  | push o | jmp o | jz o | jnz o | jc o | jnc o | jm o | jnm o | call o | ret o =>
    simp only [phasesOf, jumpIf] at h
    exact withSource_regF (fun _ _ => rfl) h
  | load o | pop o | add o | sub o | and o | or o | xor o | not o | inc o | dec o | rol o | ror o =>
    cases hclass

/-- Settles O32: without flags only WRITEBACK can reach F. -/
theorem onlyFlagClassesOrFlagTargetsChangeF : Obligations.OnlyFlagClassesOrFlagTargetsChangeF := by
  intro i s t hclass _ hexec hdone hchanged
  rcases exec_cases i s with ⟨u, hphases, hnext, -⟩ | ⟨c, -, hnext⟩ <;> rw [hnext] at hexec <;> cases hexec
  · rcases phasesOf_regF hclass hphases with hsame | htarget
    · exact absurd hsame hchanged
    · exact htarget
  · rw [takeFault_status] at hdone
    cases hdone

end Sys2Proof.Machine
end

section
/-! The instructions, class by class: the shared forms (a class that copies its source, that combines target and
source, that acts on its target, that jumps on a condition) are proved once, and each class is one of them
(41_data_movement.md, 42_alu.md, 43_control.md). -/

namespace Sys2Proof.Machine

open Sys2Proof.Claims

/-! What `exec` answers where the phases end, and where they fault. -/

theorem exec_of_phases {i : Instr} {s t : State} (h : phasesOf i s = .ok t) : exec i s = .next t := by
  rw [exec_eq, h, conclude_ok]

theorem faults_of_phases {i : Instr} {s : State} {c : FaultCause} (h : phasesOf i s = .error c) :
    Faults i s c :=
  ⟨s.takeFault c i.operands.opcode s.regI, by rw [exec_eq, h, conclude_error], rfl, rfl, rfl, rfl, rfl, rfl⟩

/-- A state that WRITEBACK left, with BASE_INC, is the whole effect of a write. -/
theorem wrote_of_writeDone {o : Operands} {s u : State} {v : Cell} {fl : Option FlagBits}
    (h : WriteDone (adjusted o s) u fl (targetLoc o s) v) : Wrote o s (u.baseIncrement o.sideEffect) v fl := by
  refine ⟨fun r => ?_, fun a => ?_, ?_⟩
  · rw [baseIncrement_reg_eq_baseBumped, h.reg]
  · rw [baseIncrement_read, h.read]
  · exact restKept_trans (adjusted_restKept o s) (restKept_trans h.rest (baseIncrement_sameRest _ _))

/-- FLAGS to BASE_INC of a jumpless write to a writable target. -/
theorem settle_wrote {o : Operands} {s : State} {v : Cell} (fl : Option FlagBits)
    (h : (targetLoc o s).writable s.cfg = true) :
    ∃ t, settle o (targetLoc o s) ⟨some v, fl, none⟩ (adjusted o s) = .ok t ∧ Wrote o s t v fl := by
  obtain ⟨u, hu, hdone⟩ := settle_writes (o := o) (e := ⟨some v, fl, none⟩) (s := adjusted o s) rfl h
  exact ⟨_, hu, wrote_of_writeDone hdone⟩

/-- The state after STACK_ADJ and BASE_INC is the whole effect of writing nothing. -/
theorem wroteNothing_baseIncrement (o : Operands) (s : State) :
    WroteNothing o s ((adjusted o s).baseIncrement o.sideEffect) := by
  refine ⟨fun r => baseIncrement_reg_eq_baseBumped _ _ _, fun a => ?_, ?_⟩
  · rw [baseIncrement_read, adjusted_read]
  · exact restKept_trans (adjusted_restKept o s) (baseIncrement_sameRest _ _)

/-- Phases that end in a write have the faults of the write. -/
theorem writeFaults_of_settle {i : Instr} {s : State} {e : Effect} {v : Cell} (hw : e.write = some v)
    (h : phasesOf i s = settle i.operands (targetLoc i.operands s) e (adjusted i.operands s)) :
    WriteFaults i s := by
  refine ⟨fun hnone => ?_, fun a hloc ha hpolicy => ?_⟩
  · exact faults_of_phases (h.trans (settle_undefinedTarget hw hnone))
  · rw [hloc] at h
    exact faults_of_phases (h.trans (settle_promWrite (s := adjusted i.operands s) hw (isProgram_iff.mpr ha) hpolicy))

/-- A class that reads its target has them too: reading what is no location faults as writing it does. -/
theorem writeFaults_of_withTarget {i : Instr} {s : State} {eff : Cell → State → Effect}
    (hw : ∀ tv t, ∃ v, (eff tv t).write = some v) (h : phasesOf i s = withTarget i.operands s eff) :
    WriteFaults i s := by
  cases htv : targetValue i.operands s with
  | none =>
    have hnone : (targetLoc i.operands s).readable = false := (readLoc_none _ _).mp htv
    refine ⟨fun _ => faults_of_phases (h.trans (withTarget_none hnone)), fun a hloc => ?_⟩
    rw [hloc] at hnone
    cases hnone
  | some tv =>
    obtain ⟨v, hv⟩ := hw tv (adjusted i.operands s)
    exact writeFaults_of_settle hv (h.trans (withTarget_some eff htv))

/-! The forms. -/

/-- A class that copies its source: CopiesSource of one instruction. -/
theorem copies_source {i : Instr} {s : State} (fl : Cell → Option FlagBits)
    (h : phasesOf i s = withSource i.operands s fun v _ => ⟨some v, fl v, none⟩) :
    (i.operands.source = .none → Faults i s .undefinedSource) ∧
    ∀ v, sourceValue i.operands s = some v →
      WriteFaults i s ∧
      ((targetLoc i.operands s).writable s.cfg = true →
        ∃ t, exec i s = .next t ∧ Wrote i.operands s t v (fl v)) := by
  refine ⟨fun hnone => faults_of_phases (h.trans (withSource_none hnone)), fun v hv => ?_⟩
  have hsettle := h.trans (withSource_some _ hv)
  refine ⟨writeFaults_of_settle rfl hsettle, fun hwritable => ?_⟩
  obtain ⟨t, ht, hwrote⟩ := settle_wrote (v := v) (fl v) hwritable
  exact ⟨t, exec_of_phases (hsettle.trans ht), hwrote⟩

/-- A class that combines target and source: CombinesSource of one instruction. -/
theorem combines_source {i : Instr} {s : State} {alu : Cell → Cell → AluResult}
    (h : phasesOf i s = withBoth i.operands s fun tv v => (alu tv v).effect) :
    (i.operands.source = .none → Faults i s .undefinedSource) ∧
    ∀ v, sourceValue i.operands s = some v →
      WriteFaults i s ∧
      ∀ tv, targetValue i.operands s = some tv → (targetLoc i.operands s).writable s.cfg = true →
        ∃ t, exec i s = .next t ∧ Wrote i.operands s t (alu tv v).value (some (alu tv v).flags) := by
  refine ⟨fun hnone => faults_of_phases (h.trans (withBoth_none hnone)), fun v hv => ?_⟩
  have htarget := h.trans (withBoth_some _ hv)
  refine ⟨writeFaults_of_withTarget (fun tv _ => ⟨(alu tv v).value, rfl⟩) htarget, fun tv htv hwritable => ?_⟩
  obtain ⟨t, ht, hwrote⟩ := settle_wrote (v := (alu tv v).value) (some (alu tv v).flags) hwritable
  exact ⟨t, exec_of_phases ((htarget.trans (withTarget_some _ htv)).trans ht), hwrote⟩

/-- A class that acts on its target and C: ActsOnTarget of one instruction. -/
theorem acts_on_target {i : Instr} {s : State} {alu : Cell → Bool → AluResult}
    (h : phasesOf i s = withTarget i.operands s fun tv t => (alu tv (t.flag .c)).effect) :
    WriteFaults i s ∧
    ∀ tv, targetValue i.operands s = some tv → (targetLoc i.operands s).writable s.cfg = true →
      ∃ t, exec i s = .next t ∧
        Wrote i.operands s t (alu tv (s.flag .c)).value (some (alu tv (s.flag .c)).flags) := by
  refine ⟨writeFaults_of_withTarget (fun tv t => ⟨(alu tv (t.flag .c)).value, rfl⟩) h, fun tv htv hwritable => ?_⟩
  obtain ⟨t, ht, hwrote⟩ :=
    settle_wrote (v := (alu tv (s.flag .c)).value) (some (alu tv (s.flag .c)).flags) hwritable
  exact ⟨t, exec_of_phases ((h.trans (withTarget_some _ htv)).trans ht), hwrote⟩

/-- A class that jumps on a condition: JumpsWhen of one instruction. -/
theorem jumps_when {i : Instr} {s : State} {test : State → Bool} (cond : Bool)
    (h : phasesOf i s = jumpIf i.operands s test) (htest : test (adjusted i.operands s) = cond) :
    (i.operands.source = .none → Faults i s .undefinedSource) ∧
    ∀ v, sourceValue i.operands s = some v →
      (cond = true → WriteFaults i s ∧
        ((targetLoc i.operands s).writable s.cfg = true →
          ∃ t, exec i s = .next t ∧ Wrote i.operands s t v none)) ∧
      (cond = false → ∃ t, exec i s = .next t ∧ WroteNothing i.operands s t) := by
  rw [jumpIf] at h
  refine ⟨fun hnone => faults_of_phases (h.trans (withSource_none hnone)), fun v hv => ?_⟩
  have hsettle := h.trans (withSource_some _ hv)
  rw [htest] at hsettle
  refine ⟨fun hyes => ?taken, fun hno => ?untaken⟩
  case taken =>
    rw [if_pos hyes] at hsettle
    refine ⟨writeFaults_of_settle rfl hsettle, fun hwritable => ?_⟩
    obtain ⟨t, ht, hwrote⟩ := settle_wrote (v := v) none hwritable
    exact ⟨t, exec_of_phases (hsettle.trans ht), hwrote⟩
  case untaken =>
    rw [hno, if_neg Bool.false_ne_true, settle_nothing] at hsettle
    exact ⟨_, exec_of_phases hsettle, wroteNothing_baseIncrement _ _⟩

/-! Data movement. -/

/-- The flags LOAD and POP write are those of the value. -/
theorem copyWithFlags_eq (v : Cell) : copyWithFlags v = ⟨some v, some (flagsOfValue v), none⟩ := by
  rw [copyWithFlags, flagRule_toNat]

/-- Settles O39: LOAD copies its source. -/
theorem loadCopiesTheSourceWithItsFlags : Obligations.LoadCopiesTheSourceWithItsFlags := fun o s =>
  copies_source (i := .load o) (s := s) _ (by simp only [phasesOf, copyWithFlags_eq]; rfl)

theorem push_copiesSource : CopiesSource .push fun _ => none := fun o s =>
  copies_source (i := .push o) (s := s) _ rfl

theorem pop_copiesSource : CopiesSource .pop fun v => some (flagsOfValue v) := fun o s =>
  copies_source (i := .pop o) (s := s) _ (by simp only [phasesOf, copyWithFlags_eq]; rfl)

theorem ret_copiesSource : CopiesSource .ret fun _ => none := fun o s =>
  copies_source (i := .ret o) (s := s) _ rfl

/-- The target of a push or a call in the expected shape is the cell below the old top. -/
theorem targetLoc_stackInd_preDec {o : Operands} (s : State) (ht : o.target = .stackInd)
    (he : o.sideEffect = .preDecStack) : targetLoc o s = .mem (s.regS - 1) := by
  rw [targetLoc, tgtLoc, ht, adjusted, he]
  rfl

theorem targetLoc_reg {o : Operands} (s : State) {r : Reg} (ht : o.target = .reg r) :
    targetLoc o s = .reg r := by
  rw [targetLoc, tgtLoc, ht]

theorem targetLoc_flag {o : Operands} (s : State) {x : Flag} (ht : o.target = .flag x) :
    targetLoc o s = .flag x := by
  rw [targetLoc, tgtLoc, ht]

/-- The source of a pop or a return in the expected shape is the old top, read before STACK_ADJ. -/
theorem sourceValue_stackInd {o : Operands} (s : State) (h : o.source = .stackInd) :
    sourceValue o s = some (s.read s.regS) := by
  rw [sourceValue, srcValue, h]
  rfl

theorem mem_writable {cfg : Config} {a : Cell} (h : a.toNat < 0o30 ∨ cfg.promWritePolicy = .ignore) :
    (Loc.mem a).writable cfg = true := by
  rw [Loc.writable, Bool.or_eq_true, Bool.not_eq_true', isProgram_eq_false_iff, beq_iff_eq]
  exact h

/-- A cell that keeps its value takes the whole of what is written to it. -/
theorem cellWritten_keepsValue {s : State} {a : Cell} (v : Cell) (h : keepsValue s.cfg a = true) :
    cellWritten s (.mem a) v a = v := by
  simp only [keepsValue, Bool.and_eq_true, decide_eq_true_eq, bne_iff_ne] at h
  obtain ⟨⟨⟨hbelow, hport⟩, -⟩, -⟩ := h
  have hnot : ¬ (a ≠ a ∨ 0o30 ≤ a.toNat) := by
    rw [not_or, Nat.not_le]
    exact ⟨fun hne => hne rfl, hbelow⟩
  rw [cellWritten, if_neg hnot, if_neg hport]

theorem cellWritten_other {s : State} {a b : Cell} (v : Cell) (h : b ≠ a) :
    cellWritten s (.mem a) v b = s.read b := by
  rw [cellWritten, if_pos (.inl h)]

/-- Every register but the target, and F, ends as the side effects leave it. -/
theorem wrote_reg_other {o : Operands} {s t : State} {v : Cell} {fl : Option FlagBits} (h : Wrote o s t v fl)
    {r : Reg} (hr : targetLoc o s ≠ .reg r) (hf : r ≠ .f) :
    t.reg r = baseBumped o.sideEffect r ((adjusted o s).reg r) := by
  obtain ⟨hreg, -, -⟩ := h
  rw [hreg r]
  congr 1
  cases hloc : targetLoc o s with
  | reg q => rw [regWritten, if_neg (fun h => hr (by rw [hloc, h])), if_neg hf]
  | flag x => rw [regWritten, if_neg hf]
  | mem | imm | none => rw [regWritten, if_neg hf]

/-- F of a class that writes no flags, where the target is neither F nor a flag. -/
theorem wrote_regF_of_no_flags {o : Operands} {s t : State} {v : Cell} (h : Wrote o s t v none)
    (hf : targetLoc o s ≠ .reg .f) (hx : ∀ x, targetLoc o s ≠ .flag x) : t.regF = s.regF := by
  obtain ⟨hreg, -, -⟩ := h
  refine (hreg .f).trans ?_
  rw [baseBumped_of_ne_b _ _ (by decide)]
  cases hloc : targetLoc o s with
  | reg q => rw [regWritten, if_neg (fun h => hf (by rw [hloc, h])), if_pos rfl]; rfl
  | flag x => exact absurd hloc (hx x)
  | mem | imm | none => rfl

/-- A register target takes the value, with the base increment on B. -/
theorem wrote_reg_target {o : Operands} {s t : State} {v : Cell} {fl : Option FlagBits} (h : Wrote o s t v fl)
    {r : Reg} (hr : targetLoc o s = .reg r) : t.reg r = baseBumped o.sideEffect r v := by
  obtain ⟨hreg, -, -⟩ := h
  rw [hreg r, hr, regWritten, if_pos rfl]

/-- A write to a register or a flag changes no cell. -/
theorem wrote_read_of_not_mem {o : Operands} {s t : State} {v : Cell} {fl : Option FlagBits}
    (h : Wrote o s t v fl) (hm : ∀ b, targetLoc o s ≠ .mem b) (a : Cell) : t.read a = s.read a := by
  obtain ⟨-, hread, -⟩ := h
  rw [hread a]
  cases hloc : targetLoc o s with
  | mem b => exact absurd hloc (hm b)
  | reg | flag | imm | none => rfl

theorem baseBumped_of_ne {e : SideEffect} (h : e ≠ .postIncBase) (r : Reg) (v : Cell) : baseBumped e r v = v :=
  if_neg fun hb => h hb.2

/-- S ends as STACK_ADJ leaves it unless it is the target. -/
theorem wrote_regS {o : Operands} {s t : State} {v : Cell} {fl : Option FlagBits} (h : Wrote o s t v fl)
    (hr : targetLoc o s ≠ .reg .s) : t.regS = adjustedS o.sideEffect s := by
  have hS := wrote_reg_other h hr (by decide)
  rwa [baseBumped_of_ne_b _ _ (by decide)] at hS

/-- The completing clause of a class that copies its source. -/
theorem copiesSource_wrote {mk : Operands → Instr} {fl : Cell → Option FlagBits} (h : CopiesSource mk fl)
    {o : Operands} {s : State} {v : Cell} (hv : sourceValue o s = some v)
    (hwritable : (targetLoc o s).writable s.cfg = true) :
    ∃ t, exec (mk o) s = .next t ∧ Wrote o s t v (fl v) := by
  obtain ⟨-, hcopies⟩ := h o s
  obtain ⟨-, hwrites⟩ := hcopies v hv
  exact hwrites hwritable

/-- Settles O40: PUSH copies its source, and in the expected shape its target is the new top. -/
theorem pushStoresTheSourceAtTheNewTop : Obligations.PushStoresTheSourceAtTheNewTop := by
  refine ⟨push_copiesSource, fun o s v hv ht he => ?_⟩
  have hloc := targetLoc_stackInd_preDec s ht he
  refine ⟨hloc, fun hfree => ?_⟩
  obtain ⟨t, hexec, hwrote⟩ := copiesSource_wrote push_copiesSource hv (by rw [hloc]; exact mem_writable hfree)
  refine ⟨t, hexec, ?top, wrote_regF_of_no_flags hwrote (by rw [hloc]; exact Loc.noConfusion)
    fun x => by rw [hloc]; exact Loc.noConfusion, fun hkeeps => ?stored⟩
  case top => rw [wrote_regS hwrote (by rw [hloc]; exact Loc.noConfusion), he, adjustedS]
  case stored =>
    obtain ⟨-, hread, -⟩ := hwrote
    rw [hread, hloc]
    exact cellWritten_keepsValue (s := adjusted o s) v hkeeps

/-- Settles O41: POP copies its source, in the expected shape the old top. -/
theorem popMovesTheTopOfStackToTheTarget : Obligations.PopMovesTheTopOfStackToTheTarget := by
  refine ⟨pop_copiesSource, fun o s hs he => ⟨sourceValue_stackInd s hs, fun r ht => ?_⟩⟩
  have hloc := targetLoc_reg s ht
  obtain ⟨t, hexec, hwrote⟩ :=
    copiesSource_wrote pop_copiesSource (sourceValue_stackInd s hs) (by rw [hloc]; rfl)
  refine ⟨t, hexec, ?value, fun hr => ?top, wrote_read_of_not_mem hwrote fun b => by rw [hloc]; exact Loc.noConfusion⟩
  case value => rw [wrote_reg_target hwrote hloc, he, baseBumped_of_ne (by decide)]
  case top => rw [wrote_regS hwrote (by rw [hloc]; exact fun h => hr (Loc.reg.inj h)), he, adjustedS]

/-! The ALU. -/

/-- A class whose phases are those of an ALU function of target and source, with the value and the flags as the
statement gives them. -/
theorem combinesSource_of {mk : Operands → Instr} {alu : Cell → Cell → AluResult}
    {result : Cell → Cell → Cell × FlagBits} (hops : ∀ o, (mk o).operands = o)
    (h : ∀ o s, phasesOf (mk o) s = withBoth o s fun tv v => (alu tv v).effect)
    (hresult : ∀ tv v, ((alu tv v).value, (alu tv v).flags) = result tv v) : CombinesSource mk result := by
  intro o s
  have hform := combines_source (i := mk o) (s := s) (alu := alu) (by rw [hops]; exact h o s)
  simp only [hops, ← hresult] at hform ⊢
  exact hform

/-- The same for a class that acts on its target. -/
theorem actsOnTarget_of {mk : Operands → Instr} {alu : Cell → Bool → AluResult}
    {result : Cell → Bool → Cell × FlagBits} (hops : ∀ o, (mk o).operands = o)
    (h : ∀ o s, phasesOf (mk o) s = withTarget o s fun tv t => (alu tv (t.flag .c)).effect)
    (hresult : ∀ tv c, ((alu tv c).value, (alu tv c).flags) = result tv c) : ActsOnTarget mk result := by
  intro o s
  have hform := acts_on_target (i := mk o) (s := s) (alu := alu) (by rw [hops]; exact h o s)
  simp only [hops, ← hresult] at hform ⊢
  exact hform

/-- Settles O44: sum and difference of cells, flagged before masking. -/
theorem addAndSubCombineTargetAndSource : Obligations.AddAndSubCombineTargetAndSource :=
  ⟨combinesSource_of (alu := aluAdd) (fun _ => rfl) (fun _ _ => rfl)
      fun tv v => Prod.ext (mask6_add tv v) (aluAdd_flags tv v),
    combinesSource_of (alu := aluSub) (fun _ => rfl) (fun _ _ => rfl)
      fun tv v => Prod.ext (mask6_sub tv v) (aluSub_flags tv v)⟩

/-- A result that is a cell is stored as it is, with the flags of its value. -/
theorem ofPreMask_toNat (v : Cell) :
    ((AluResult.ofPreMask v.toNat).value, (AluResult.ofPreMask v.toNat).flags) = (v, flagsOfValue v) := by
  rw [ofPreMask_value, ofPreMask_flags, mask6_toNat, flagRule_toNat]

/-- Settles O45: each answer is a cell. -/
theorem logicalClassesCombineTargetAndSource : Obligations.LogicalClassesCombineTargetAndSource :=
  ⟨combinesSource_of (alu := aluAnd) (fun _ => rfl) (fun _ _ => rfl) fun _ _ => ofPreMask_toNat _,
    combinesSource_of (alu := aluOr) (fun _ => rfl) (fun _ _ => rfl) fun _ _ => ofPreMask_toNat _,
    combinesSource_of (alu := aluXor) (fun _ => rfl) (fun _ _ => rfl) fun _ _ => ofPreMask_toNat _⟩

theorem aluNot_result (tv : Cell) : ((aluNot tv).value, (aluNot tv).flags) = (~~~tv, flagsOfValue (~~~tv)) := by
  rw [aluNot, xor_seventySeven, ofPreMask_toNat]

/-- Settles O46: NOT answers a cell; INC and DEC are ADD and SUB of 1. -/
theorem notIncDecActOnTheTarget : Obligations.NotIncDecActOnTheTarget :=
  ⟨actsOnTarget_of (alu := fun tv _ => aluNot tv) (fun _ => rfl) (fun _ _ => rfl) fun tv _ => aluNot_result tv,
    actsOnTarget_of (alu := fun tv _ => aluInc tv) (fun _ => rfl) (fun _ _ => rfl)
      fun tv _ => Prod.ext (mask6_add tv 1) (aluInc_flags tv),
    actsOnTarget_of (alu := fun tv _ => aluDec tv) (fun _ => rfl) (fun _ _ => rfl)
      fun tv _ => Prod.ext (mask6_sub tv 1) (aluDec_flags tv)⟩

/-- Settles O47: the stored value is the shifted target with C at the free end. -/
theorem rotatesGoThroughTheCarry : Obligations.RotatesGoThroughTheCarry :=
  ⟨actsOnTarget_of (alu := aluRol) (fun _ => rfl) (fun _ _ => rfl)
      fun tv c => Prod.ext (aluRol_value tv c) (aluRol_flags tv c),
    actsOnTarget_of (alu := aluRor) (fun _ => rfl) (fun _ _ => rfl)
      fun tv c => Prod.ext (aluRor_value tv c) (aluRor_flags tv c)⟩

/-! Control. -/

/-- A class whose phases are those of a jump on a test of the flags. -/
theorem jumpsWhen_of {mk : Operands → Instr} {test cond : State → Bool} (hops : ∀ o, (mk o).operands = o)
    (h : ∀ o s, phasesOf (mk o) s = jumpIf o s test) (htest : ∀ o s, test (adjusted o s) = cond s) :
    JumpsWhen mk cond := by
  intro o s
  have hform := jumps_when (i := mk o) (s := s) (cond s) (by rw [hops]; exact h o s)
    (by rw [hops]; exact htest o s)
  simp only [hops] at hform
  exact hform

theorem jmp_copiesSource : CopiesSource .jmp fun _ => none := fun o s =>
  copies_source (i := .jmp o) (s := s) _ rfl

/-- Settles O48: JMP copies its source, and I keeps what is written to it. -/
theorem jmpWritesTheTarget : Obligations.JmpWritesTheTarget := by
  refine ⟨jmp_copiesSource, fun o s v hv ht => ?_⟩
  have hloc := targetLoc_reg s ht
  obtain ⟨t, hexec, hwrote⟩ := copiesSource_wrote jmp_copiesSource hv (by rw [hloc]; rfl)
  have hI := wrote_reg_target hwrote hloc
  rw [baseBumped_of_ne_b _ _ (by decide)] at hI
  exact ⟨t, hexec, hI⟩

/-- The test that a flag is clear, on F. -/
theorem not_flag_eq (s : State) (x : Flag) : (!s.flag x) = (s.regF &&& flagMaskOf s.cfg.flagMask x == 0) := by
  rw [State.flag, flagSet, bne, Bool.not_not]

/-- Settles O49: both test Z, which the fetch and STACK_ADJ leave as it was. -/
theorem jzAndJnzJumpOnZero : Obligations.JzAndJnzJumpOnZero :=
  ⟨jumpsWhen_of (fun _ => rfl) (fun _ _ => rfl) fun _ _ => rfl,
    jumpsWhen_of (fun _ => rfl) (fun _ _ => rfl) fun o s => not_flag_eq (adjusted o s) .z⟩

/-- Settles O50: both test C, which the fetch and STACK_ADJ leave as it was. -/
theorem jcAndJncJumpOnCarry : Obligations.JcAndJncJumpOnCarry :=
  ⟨jumpsWhen_of (fun _ => rfl) (fun _ _ => rfl) fun _ _ => rfl,
    jumpsWhen_of (fun _ => rfl) (fun _ _ => rfl) fun o s => not_flag_eq (adjusted o s) .c⟩

/-- Settles O51: both test M, which the fetch and STACK_ADJ leave as it was. -/
theorem jmAndJnmJumpOnMinus : Obligations.JmAndJnmJumpOnMinus :=
  ⟨jumpsWhen_of (fun _ => rfl) (fun _ _ => rfl) fun _ _ => rfl,
    jumpsWhen_of (fun _ => rfl) (fun _ _ => rfl) fun o s => not_flag_eq (adjusted o s) .m⟩

theorem phasesOf_call (o : Operands) (s : State) :
    phasesOf (.call o) s = withSource o s fun v t => ⟨some t.regI, none, some v⟩ := rfl

/-- CALL's phases write the post-fetch I and then jump. -/
theorem call_settle {o : Operands} {s : State} {v : Cell} (hv : sourceValue o s = some v) :
    phasesOf (.call o) s =
      settle o (targetLoc o s) ⟨some (postFetchI o s), none, some v⟩ (adjusted o s) := by
  rw [phasesOf_call, withSource_some _ hv]
  rfl

/-- Settles O52: the jump is the last to set I, and touches nothing else. -/
theorem callPushesTheReturnAddressAndJumps : Obligations.CallPushesTheReturnAddressAndJumps := by
  intro o s
  refine ⟨fun hnone => faults_of_phases ((phasesOf_call o s).trans (withSource_none hnone)), fun v hv => ?_⟩
  have hsettle := call_settle hv
  refine ⟨writeFaults_of_settle (i := .call o) rfl hsettle, fun hwritable => ?_⟩
  obtain ⟨u, hu, hdone⟩ := settle_writes (o := o) (e := ⟨some (postFetchI o s), none, some v⟩)
    (s := adjusted o s) rfl hwritable
  refine ⟨_, exec_of_phases (hsettle.trans hu), ?jumped, fun r hr => ?regs, fun a => ?cells, ?rest⟩
  case jumped => rw [baseIncrement_regI, jumpTo_regI, Option.getD_some]
  case regs => rw [baseIncrement_reg_eq_baseBumped, jumpTo_reg, if_neg hr, hdone.reg]
  case cells => rw [baseIncrement_read, jumpTo_read, hdone.read]
  case rest =>
    exact restKept_trans (adjusted_restKept o s)
      (restKept_trans hdone.rest ((jumpTo_sameRest _ _).trans (baseIncrement_sameRest _ _)))

/-- Settles O53: RETURN copies its source, in the expected shape the old top, to I. -/
theorem returnPopsTheReturnAddress : Obligations.ReturnPopsTheReturnAddress := by
  refine ⟨ret_copiesSource, fun o s hs ht he => ?_⟩
  have hloc := targetLoc_reg s ht
  obtain ⟨t, hexec, hwrote⟩ :=
    copiesSource_wrote ret_copiesSource (sourceValue_stackInd s hs) (by rw [hloc]; rfl)
  refine ⟨t, hexec, ?value, ?top, wrote_regF_of_no_flags hwrote (by rw [hloc]; decide)
    fun x => by rw [hloc]; exact Loc.noConfusion, wrote_read_of_not_mem hwrote fun b => by rw [hloc]; exact Loc.noConfusion⟩
  case value =>
    have hI := wrote_reg_target hwrote hloc
    rw [baseBumped_of_ne_b _ _ (by decide)] at hI
    exact hI
  case top => rw [wrote_regS hwrote (by rw [hloc]; decide), he, adjustedS]

/-- Settles O55: NOP has only the fetch and the side effects. -/
theorem nopOnlyAdvances : Obligations.NopOnlyAdvances := by
  intro o s
  have hphases : phasesOf (.nop o) s = .ok ((adjusted o s).baseIncrement o.sideEffect) := by
    rw [phasesOf, stackAdjust_eq_adjusted]
  exact ⟨_, exec_of_phases hphases, wroteNothing_baseIncrement o s⟩

end Sys2Proof.Machine
end

section
/-! Instructions one after another, each with its TICK and IO: the stack discipline, CALL with RETURN, and
base-indexed loads (41_data_movement.md, 43_control.md section 2). -/

namespace Sys2Proof.Machine

open Sys2Proof.Claims

/-! One instruction of a run. -/

/-- An instruction that runs to the end of its step without a fault. -/
def RunsTo (i : Instr) (s t : State) : Prop := runInstr i s = .next t ∧ t.status = .run

theorem RunsTo.status {i : Instr} {s t : State} (h : RunsTo i s t) : t.status = .run := by
  obtain ⟨-, hrun⟩ := h
  exact hrun

theorem runsTo_complete {i : Instr} {s u : State} (hexec : exec i s = .next u) (hrun : u.status = .run) :
    RunsTo i s u.complete :=
  ⟨by rw [runInstr_of_exec hexec, completeUnlessFaulted_run hrun], (complete_status u).trans hrun⟩

theorem runAll_cons {i : Instr} {s t : State} (h : RunsTo i s t) (is : List Instr) :
    runAll (i :: is) s = runAll is t := by
  obtain ⟨hnext, hrun⟩ := h
  rw [runAll, hnext]
  exact if_pos hrun

theorem sourceValues_cons {i : Instr} {s t : State} {v : Cell} (hv : sourceValue i.operands s = some v)
    (h : RunsTo i s t) (is : List Instr) :
    sourceValues (i :: is) s = (sourceValues is t).map (v :: ·) := by
  have hone : runAll [i] s = some t := runAll_cons h []
  rw [sourceValues, hv, hone]

/-- A cell that neither TICK nor IO writes. -/
def Undriven (cfg : Config) (a : Cell) : Prop :=
  a ≠ cfg.ioMap.port ∧ a ≠ cfg.ioMap.tickSlow ∧ a ≠ cfg.ioMap.tickFast

theorem complete_read_undriven {s : State} {a : Cell} (h : Undriven s.cfg a) : s.complete.read a = s.read a := by
  obtain ⟨hport, hslow, hfast⟩ := h
  rw [complete_read_of_ne_port hport, tickPhase_read_other hfast hslow]

theorem undriven_of_keepsValue {cfg : Config} {a : Cell} (h : keepsValue cfg a = true) : Undriven cfg a := by
  simp only [keepsValue, Bool.and_eq_true, decide_eq_true_eq, bne_iff_ne] at h
  obtain ⟨⟨⟨-, hport⟩, hslow⟩, hfast⟩ := h
  exact ⟨hport, hslow, hfast⟩

theorem mem_writable_of_keepsValue {cfg : Config} {a : Cell} (h : keepsValue cfg a = true) :
    (Loc.mem a).writable cfg = true := by
  simp only [keepsValue, Bool.and_eq_true, decide_eq_true_eq, bne_iff_ne] at h
  obtain ⟨⟨⟨hbelow, -⟩, -⟩, -⟩ := h
  exact mem_writable (.inl hbelow)

theorem wrote_status {o : Operands} {s t : State} {v : Cell} {fl : Option FlagBits} (h : Wrote o s t v fl) :
    t.status = s.status := by
  obtain ⟨-, -, -, hstatus, -⟩ := h
  exact hstatus

theorem wrote_cfg {o : Operands} {s t : State} {v : Cell} {fl : Option FlagBits} (h : Wrote o s t v fl) :
    t.cfg = s.cfg := by
  obtain ⟨-, -, -, -, -, -, -, -, hcfg⟩ := h
  exact hcfg

/-! Base-indexed loads. -/

/-- LOAD A,[B] with base increment, with its TICK and IO. -/
theorem load_base_runsTo {o : Operands} {s : State} (hs : o.source = .baseInd) (ht : o.target = .reg .a)
    (he : o.sideEffect = .postIncBase) (hrun : s.status = .run) :
    sourceValue o s = some (s.read s.regB) ∧
    ∃ t, RunsTo (.load o) s t ∧ t.cfg = s.cfg ∧ t.regA = s.read s.regB ∧ t.regB = s.regB + 1 ∧
      ∀ a, Undriven s.cfg a → t.read a = s.read a := by
  have hv : sourceValue o s = some (s.read s.regB) := by
    rw [sourceValue, srcValue, hs]
    rfl
  have hloc := targetLoc_reg s ht
  obtain ⟨u, hexec, hwrote⟩ :=
    copiesSource_wrote loadCopiesTheSourceWithItsFlags hv (by rw [hloc]; rfl)
  have hcfg := wrote_cfg hwrote
  have hrest : ∀ a, u.read a = s.read a :=
    wrote_read_of_not_mem hwrote fun b => by rw [hloc]; exact Loc.noConfusion
  refine ⟨hv, u.complete, runsTo_complete hexec ((wrote_status hwrote).trans hrun), by rw [complete_cfg, hcfg],
    ?_, ?_, fun a ha => ?_⟩
  · have hA := wrote_reg_target hwrote hloc
    rw [baseBumped_of_ne_b _ _ (by decide)] at hA
    exact (complete_regA u).trans hA
  · have hB := wrote_reg_other hwrote (r := .b) (by rw [hloc]; decide) (by decide)
    rw [baseBumped_b, if_pos he] at hB
    exact (complete_regB u).trans hB
  · rw [complete_read_undriven (by rwa [hcfg]), hrest]

/-- Settles O43: each load reads the cell B names, moves B past it, and changes none of the other two. -/
theorem threeBaseIndexedLoadsWalkThreeCells : Obligations.ThreeBaseIndexedLoadsWalkThreeCells := by
  intro o s hs ht he hrun _ hfree
  have hB1 : Undriven s.cfg (s.regB + 1) := hfree 1 (by decide)
  have hB2 : Undriven s.cfg (s.regB + 2) := hfree 2 (by decide)
  obtain ⟨hv1, t1, h1, hcfg1, -, hregB1, hread1⟩ := load_base_runsTo hs ht he hrun
  obtain ⟨hv2, t2, h2, hcfg2, -, hregB2, hread2⟩ := load_base_runsTo hs ht he h1.status
  obtain ⟨hv3, t3, h3, -, hregA3, hregB3, -⟩ := load_base_runsTo hs ht he h2.status
  have htwo : s.regB + 1 + 1 = s.regB + 2 := BitVec.add_assoc _ _ _
  have hthree : s.regB + 2 + 1 = s.regB + 3 := BitVec.add_assoc _ _ _
  rw [hregB1, hread1 _ hB1] at hv2
  rw [hregB1, htwo] at hregB2
  have hthird : t2.read t2.regB = s.read (s.regB + 2) := by
    rw [hregB2, hread2 _ (by rwa [hcfg1]), hread1 _ hB2]
  rw [hthird] at hv3 hregA3
  refine ⟨t3, ?_, by rw [hregB3, hregB2, hthree], hregA3, ?_⟩
  · rw [runAll_cons h1, runAll_cons h2, runAll_cons h3, runAll]
  · rw [sourceValues_cons (i := .load o) hv1 h1, sourceValues_cons (i := .load o) hv2 h2, sourceValues_cons (i := .load o) hv3 h3, sourceValues]
    rfl

/-! CALL and RETURN. -/

/-- CALL in the expected shape, with its TICK and IO, onto a cell that keeps its value. -/
theorem call_runsTo {c : Operands} {s : State} {v : Cell} (ht : c.target = .stackInd)
    (he : c.sideEffect = .preDecStack) (hv : sourceValue c s = some v)
    (hkeeps : keepsValue s.cfg (s.regS - 1) = true) (hrun : s.status = .run) :
    ∃ t, RunsTo (.call c) s t ∧ t.regI = v ∧ t.regS = s.regS - 1 ∧ t.read (s.regS - 1) = postFetchI c s ∧
      t.regF = s.regF ∧ t.regA = s.regA ∧ t.regB = s.regB := by
  have hloc := targetLoc_stackInd_preDec s ht he
  obtain ⟨-, hcall⟩ := callPushesTheReturnAddressAndJumps c s
  obtain ⟨-, hwrites⟩ := hcall v hv
  obtain ⟨u, hexec, hI, hregs, hread, hrest⟩ :=
    hwrites (by rw [hloc]; exact mem_writable_of_keepsValue hkeeps)
  obtain ⟨-, hstatus, -, -, -, -, hcfg⟩ := hrest
  rw [hloc] at hregs hread
  have hother : ∀ r, r ≠ .i → r ≠ .f → u.reg r = (adjusted c s).reg r := by
    intro r hr hf
    rw [hregs r hr, baseBumped_of_ne (by rw [he]; decide), regWritten, if_neg hf]
  have hF : u.reg .f = s.regF := by
    rw [hregs .f (by decide), baseBumped_of_ne_b _ _ (by decide)]
    rfl
  have hS : u.reg .s = s.regS - 1 := by
    rw [hother .s (by decide) (by decide), adjusted, he]
    rfl
  refine ⟨u.complete, runsTo_complete hexec (hstatus.trans hrun), (complete_regI u).trans hI,
    (complete_regS u).trans hS, ?_, (complete_regF u).trans hF,
    (complete_regA u).trans (hother .a (by decide) (by decide)),
    (complete_regB u).trans (hother .b (by decide) (by decide))⟩
  rw [complete_read_undriven (undriven_of_keepsValue (by rwa [hcfg])), hread]
  exact cellWritten_keepsValue (s := adjusted c s) _ hkeeps

/-- RETURN in the expected shape, with its TICK and IO. -/
theorem ret_runsTo {r : Operands} {s : State} (hs : r.source = .stackInd) (ht : r.target = .reg .i)
    (he : r.sideEffect = .postIncStack) (hrun : s.status = .run) :
    ∃ t, RunsTo (.ret r) s t ∧ t.regI = s.read s.regS ∧ t.regS = s.regS + 1 ∧ t.regF = s.regF ∧
      t.regA = s.regA ∧ t.regB = s.regB := by
  have hloc := targetLoc_reg s ht
  obtain ⟨u, hexec, hwrote⟩ :=
    copiesSource_wrote ret_copiesSource (sourceValue_stackInd s hs) (by rw [hloc]; rfl)
  have hother : ∀ q, q ≠ .i → q ≠ .f → u.reg q = (adjusted r s).reg q := by
    intro q hq hf
    rw [wrote_reg_other hwrote (by rw [hloc]; exact fun h => hq (Loc.reg.inj h).symm) hf,
      baseBumped_of_ne (by rw [he]; decide)]
  have hI : u.reg .i = s.read s.regS := by
    rw [wrote_reg_target hwrote hloc, baseBumped_of_ne_b _ _ (by decide)]
  have hS : u.regS = s.regS + 1 := by
    rw [wrote_regS hwrote (by rw [hloc]; decide), he, adjustedS]
  have hF : u.regF = s.regF :=
    wrote_regF_of_no_flags hwrote (by rw [hloc]; decide) fun x => by rw [hloc]; exact Loc.noConfusion
  exact ⟨u.complete, runsTo_complete hexec ((wrote_status hwrote).trans hrun), (complete_regI u).trans hI,
    (complete_regS u).trans hS, (complete_regF u).trans hF,
    (complete_regA u).trans (hother .a (by decide) (by decide)),
    (complete_regB u).trans (hother .b (by decide) (by decide))⟩

/-- Settles O54: the RETURN finds at the top of the stack the address the CALL left there. -/
theorem returnAfterCallResumes : Obligations.ReturnAfterCallResumes := by
  intro c r s v hrun _ hct hce hv hrs hrt hre hkeeps
  obtain ⟨t, hcall, htI, htS, htop, htF, htA, htB⟩ := call_runsTo hct hce hv hkeeps hrun
  obtain ⟨u, hret, huI, huS, huF, huA, huB⟩ := ret_runsTo hrs hrt hre hcall.status
  refine ⟨t, u, runAll_cons hcall [], htI, ?_, ?_, ?_, huF.trans htF, huA.trans htA, huB.trans htB⟩
  · rw [runAll_cons hcall, runAll_cons hret, runAll]
  · rw [huI, htS, htop]
  · rw [huS, htS, BitVec.sub_add_cancel]

/-! The stack discipline. -/

/-- The cells from S on hold the given values, the top first, in cells that keep what is stored in them. -/
def StackHolds (s : State) (ws : List Cell) : Prop :=
  ∀ k, (hk : k < ws.length) → keepsValue s.cfg (s.regS + BitVec.ofNat 6 k) = true ∧
    s.read (s.regS + BitVec.ofNat 6 k) = ws[k]

theorem stackHolds_nil (s : State) : StackHolds s [] := fun _ hk => absurd hk (Nat.not_lt_zero _)

/-- Address k + 1 above the new top is address k above the old one. -/
theorem above_new_top (a : Cell) (k : Nat) : a - 1 + BitVec.ofNat 6 (k + 1) = a + BitVec.ofNat 6 k := by
  bv_omega

/-- Below the top of memory no cell above the old top is the new top. -/
theorem above_ne_new_top {a : Cell} {k n : Nat} (hk : k < n) (hlow : 1 ≤ a.toNat) (hroom : a.toNat + n ≤ 63) :
    a + BitVec.ofNat 6 k ≠ a - 1 := by
  bv_omega

/-- A push puts its value on top of what the stack holds. -/
theorem stackHolds_push {s t : State} {v : Cell} {ws : List Cell} (hS : t.regS = s.regS - 1)
    (hcfg : t.cfg = s.cfg) (hkeeps : keepsValue s.cfg (s.regS - 1) = true) (htop : t.read (s.regS - 1) = v)
    (hothers : ∀ a, keepsValue s.cfg a = true → a ≠ s.regS - 1 → t.read a = s.read a)
    (hlow : 1 ≤ s.regS.toNat) (hroom : s.regS.toNat + ws.length ≤ 63) (h : StackHolds s ws) :
    StackHolds t (v :: ws) := by
  intro k hk
  rw [hS, hcfg]
  cases k with
  | zero =>
    have hzero : s.regS - 1 + BitVec.ofNat 6 0 = s.regS - 1 := BitVec.add_zero _
    rw [hzero]
    exact ⟨hkeeps, htop⟩
  | succ k =>
    have hk' : k < ws.length := Nat.lt_of_succ_lt_succ hk
    obtain ⟨hkept, hval⟩ := h k hk'
    rw [above_new_top]
    exact ⟨hkept, (hothers _ hkept (above_ne_new_top hk' hlow hroom)).trans hval⟩

/-- The top of the stack is the first of its values. -/
theorem stackHolds_top {s : State} {w : Cell} {ws : List Cell} (h : StackHolds s (w :: ws)) :
    s.read s.regS = w := by
  obtain ⟨-, hval⟩ := h 0 (Nat.zero_lt_succ _)
  rwa [show s.regS + BitVec.ofNat 6 0 = s.regS from BitVec.add_zero _] at hval

/-- A pop leaves the values under the top. -/
theorem stackHolds_pop {s t : State} {w : Cell} {ws : List Cell} (hS : t.regS = s.regS + 1)
    (hcfg : t.cfg = s.cfg) (hread : ∀ a, keepsValue s.cfg a = true → t.read a = s.read a)
    (h : StackHolds s (w :: ws)) : StackHolds t ws := by
  intro k hk
  obtain ⟨hkept, hval⟩ := h (k + 1) (Nat.succ_lt_succ hk)
  have haddr : s.regS + 1 + BitVec.ofNat 6 k = s.regS + BitVec.ofNat 6 (k + 1) := by bv_omega
  rw [hS, hcfg, haddr]
  exact ⟨hkept, (hread _ hkept).trans hval⟩

theorem isPush_iff {i : Instr} : isPush i = true ↔
    i = .push i.operands ∧ i.operands.source ≠ .none ∧ i.operands.target = .stackInd ∧
      i.operands.sideEffect = .preDecStack := by
  simp only [isPush, Bool.and_eq_true, beq_iff_eq, bne_iff_ne, and_assoc]
  refine and_congr_left fun _ => ⟨fun h => ?_, fun h => by rw [h]; rfl⟩
  rw [← ofClass_eta i, h, ofClass_operands]
  rfl

/-- A push in the expected shape, with its TICK and IO, onto a cell that keeps its value. -/
theorem push_runsTo {i : Instr} {s : State} {v : Cell} (hpush : isPush i = true) (hrun : s.status = .run)
    (hv : sourceValue i.operands s = some v) (hkeeps : keepsValue s.cfg (s.regS - 1) = true) :
    ∃ t, RunsTo i s t ∧ t.cfg = s.cfg ∧ t.regS = s.regS - 1 ∧ t.read (s.regS - 1) = v ∧
      ∀ a, keepsValue s.cfg a = true → a ≠ s.regS - 1 → t.read a = s.read a := by
  obtain ⟨hi, -, ht, he⟩ := isPush_iff.mp hpush
  have hloc := targetLoc_stackInd_preDec s ht he
  obtain ⟨u, hexec, hwrote⟩ :=
    copiesSource_wrote push_copiesSource hv (by rw [hloc]; exact mem_writable_of_keepsValue hkeeps)
  rw [← hi] at hexec
  have hcfg := wrote_cfg hwrote
  have hS := wrote_regS hwrote (by rw [hloc]; exact Loc.noConfusion)
  have hkept : ∀ a, keepsValue s.cfg a = true → u.complete.read a = u.read a := fun a ha =>
    complete_read_undriven (undriven_of_keepsValue (by rwa [hcfg]))
  rw [he, adjustedS] at hS
  refine ⟨u.complete, runsTo_complete hexec ((wrote_status hwrote).trans hrun), by rw [complete_cfg, hcfg],
    by rw [complete_regS, hS], ?_, fun a ha hne => ?_⟩
  all_goals obtain ⟨-, hread, -⟩ := hwrote
  · rw [hkept _ hkeeps, hread, hloc]
    exact cellWritten_keepsValue (s := adjusted i.operands s) v hkeeps
  · rw [hkept a ha, hread, hloc, cellWritten_other v hne, adjusted_read]

theorem isPop_cases {i : Instr} (h : isPop i = true) :
    i = .pop i.operands ∧ i.operands.source = .stackInd ∧ i.operands.sideEffect = .postIncStack ∧
      ((∃ r, r ≠ .s ∧ i.operands.target = .reg r) ∨ ∃ x, i.operands.target = .flag x) := by
  simp only [isPop, Bool.and_eq_true, beq_iff_eq] at h
  obtain ⟨⟨⟨hcls, hs⟩, he⟩, ht⟩ := h
  refine ⟨?_, hs, he, ?_⟩
  · rw [← ofClass_eta i, hcls, ofClass_operands]
    rfl
  · cases htgt : i.operands.target with
    | reg r =>
      rw [htgt] at ht
      exact .inl ⟨r, bne_iff_ne.mp ht, rfl⟩
    | flag x => exact .inr ⟨x, rfl⟩
    | none | imm | immInd | baseInd | stackInd | quick =>
      rw [htgt] at ht
      cases ht

/-- The target of such a pop is no cell and not S, and takes a write. -/
theorem isPop_targetLoc {i : Instr} (s : State) (h : isPop i = true) :
    (∀ b, targetLoc i.operands s ≠ .mem b) ∧ targetLoc i.operands s ≠ .reg .s ∧
      (targetLoc i.operands s).writable s.cfg = true := by
  obtain ⟨-, -, -, ⟨r, hr, ht⟩ | ⟨x, ht⟩⟩ := isPop_cases h
  · rw [targetLoc_reg s ht]
    exact ⟨fun b => Loc.noConfusion, fun hs => hr (Loc.reg.inj hs), rfl⟩
  · rw [targetLoc_flag s ht]
    exact ⟨fun b => Loc.noConfusion, Loc.noConfusion, rfl⟩

/-- A pop in the expected shape into a register other than S or into a flag, with its TICK and IO. -/
theorem pop_runsTo {i : Instr} {s : State} (hpop : isPop i = true) (hrun : s.status = .run) :
    sourceValue i.operands s = some (s.read s.regS) ∧
    ∃ t, RunsTo i s t ∧ t.cfg = s.cfg ∧ t.regS = s.regS + 1 ∧
      ∀ a, keepsValue s.cfg a = true → t.read a = s.read a := by
  obtain ⟨hi, hs, he, -⟩ := isPop_cases hpop
  obtain ⟨hmem, hnotS, hwritable⟩ := isPop_targetLoc s hpop
  have hv := sourceValue_stackInd s hs
  obtain ⟨u, hexec, hwrote⟩ := copiesSource_wrote pop_copiesSource hv hwritable
  rw [← hi] at hexec
  have hcfg := wrote_cfg hwrote
  have hS := wrote_regS hwrote hnotS
  rw [he, adjustedS] at hS
  refine ⟨hv, u.complete, runsTo_complete hexec ((wrote_status hwrote).trans hrun), by rw [complete_cfg, hcfg],
    by rw [complete_regS, hS], fun a ha => ?_⟩
  rw [complete_read_undriven (undriven_of_keepsValue (by rwa [hcfg])), wrote_read_of_not_mem hwrote hmem]

/-- There is room for n pushes: S does not wrap, and each cell they write keeps its value. -/
structure Room (s : State) (n : Nat) : Prop where
  low : n ≤ s.regS.toNat
  keeps : ∀ k < n, keepsValue s.cfg (s.regS - 1 - BitVec.ofNat 6 k) = true

theorem room_top {s : State} {n : Nat} (h : Room s (n + 1)) : keepsValue s.cfg (s.regS - 1) = true := by
  have htop := h.keeps 0 (Nat.zero_lt_succ n)
  rwa [show s.regS - 1 - BitVec.ofNat 6 0 = s.regS - 1 from BitVec.sub_zero _] at htop

theorem pred_toNat {a : Cell} (h : 1 ≤ a.toNat) : (a - 1).toNat = a.toNat - 1 := by
  bv_omega

/-- A push takes one place. -/
theorem room_push {s t : State} {n : Nat} (h : Room s (n + 1)) (hS : t.regS = s.regS - 1)
    (hcfg : t.cfg = s.cfg) : Room t n := by
  have hlow := h.low
  refine ⟨by rw [hS, pred_toNat (by omega)]; omega, fun k hk => ?_⟩
  have haddr : s.regS - 1 - 1 - BitVec.ofNat 6 k = s.regS - 1 - BitVec.ofNat 6 (k + 1) := by bv_omega
  rw [hS, hcfg, haddr]
  exact h.keeps (k + 1) (Nat.succ_lt_succ hk)

/-- Pushes run, and put their values over what the stack held, the last on top. -/
theorem pushes_run (pushes : List Instr) : ∀ (s : State) (ws vs : List Cell), s.status = .run →
    (∀ i ∈ pushes, isPush i = true) → Room s pushes.length → s.regS.toNat + ws.length ≤ 63 →
    StackHolds s ws → sourceValues pushes s = some vs →
      ∃ t, runAll pushes s = some t ∧ t.status = .run ∧ t.regS = s.regS - BitVec.ofNat 6 pushes.length ∧
        vs.length = pushes.length ∧ StackHolds t (vs.reverse ++ ws) := by
  induction pushes with
  | nil =>
    intro s ws vs hrun _ _ _ hstack hvs
    cases hvs
    exact ⟨s, rfl, hrun, (BitVec.sub_zero _).symm, rfl, hstack⟩
  | cons i is ih =>
    intro s ws vs hrun hpush hroom hhigh hstack hvs
    obtain ⟨hi, his⟩ := List.forall_mem_cons.mp hpush
    obtain ⟨-, hsource, -⟩ := isPush_iff.mp hi
    obtain ⟨v, hv⟩ := sourceValue_some s hsource
    have hkeeps := room_top hroom
    have hlow : 1 ≤ s.regS.toNat := Nat.le_trans (Nat.succ_le_succ (Nat.zero_le _)) hroom.low
    obtain ⟨t, hstep, hcfg, hS, htop, hothers⟩ := push_runsTo hi hrun hv hkeeps
    rw [sourceValues_cons hv hstep, Option.map_eq_some_iff] at hvs
    obtain ⟨vs', hvs', rfl⟩ := hvs
    have hhigh' : t.regS.toNat + (v :: ws).length ≤ 63 := by
      rw [hS, pred_toNat hlow, List.length_cons]
      omega
    obtain ⟨u, hrunAll, hurun, huS, hlength, hustack⟩ := ih t (v :: ws) vs' hstep.status his
      (room_push hroom hS hcfg) hhigh' (stackHolds_push hS hcfg hkeeps htop hothers hlow hhigh hstack) hvs'
    refine ⟨u, (runAll_cons hstep is).trans hrunAll, hurun, ?_, congrArg Nat.succ hlength, ?_⟩
    · rw [huS, hS, List.length_cons]
      bv_omega
    · rwa [List.reverse_cons, List.append_assoc]

/-- Pops run, and find what the stack holds from the top down. -/
theorem pops_run (pops : List Instr) : ∀ (s : State) (ws : List Cell), s.status = .run →
    (∀ i ∈ pops, isPop i = true) → ws.length = pops.length → StackHolds s ws →
      ∃ u, runAll pops s = some u ∧ u.regS = s.regS + BitVec.ofNat 6 pops.length ∧
        sourceValues pops s = some ws := by
  induction pops with
  | nil =>
    intro s ws _ _ hlength _
    rw [List.length_eq_zero_iff.mp hlength]
    exact ⟨s, rfl, (BitVec.add_zero _).symm, rfl⟩
  | cons i is ih =>
    intro s ws hrun hpop hlength hstack
    obtain ⟨hi, his⟩ := List.forall_mem_cons.mp hpop
    obtain ⟨w, ws', rfl⟩ := List.exists_cons_of_length_eq_add_one hlength
    obtain ⟨hv, t, hstep, hcfg, hS, hread⟩ := pop_runsTo hi hrun
    rw [stackHolds_top hstack] at hv
    obtain ⟨u, hrunAll, huS, hvalues⟩ :=
      ih t ws' hstep.status his (Nat.succ.inj hlength) (stackHolds_pop hS hcfg hread hstack)
    refine ⟨u, (runAll_cons hstep is).trans hrunAll, ?_, ?_⟩
    · rw [huS, hS, List.length_cons]
      bv_omega
    · rw [sourceValues_cons hv hstep, hvalues]
      rfl

/-- Settles O42: the pushes leave their values on the stack, the last on top, and the pops take them from the
top. -/
theorem popsReturnPushedValuesInReverse : Obligations.PopsReturnPushedValuesInReverse := by
  intro pushes pops s vs hrun _ hpush hpop hlength hlow hkeeps hvs
  have hhigh : s.regS.toNat + ([] : List Cell).length ≤ 63 := Nat.le_of_lt_succ s.regS.isLt
  obtain ⟨t, hrunPushes, htrun, htS, hvlength, hstack⟩ :=
    pushes_run pushes s [] vs hrun hpush ⟨hlow, hkeeps⟩ hhigh (stackHolds_nil s) hvs
  rw [List.append_nil] at hstack
  have hcount : vs.reverse.length = pops.length := by rw [List.length_reverse, hvlength, hlength]
  obtain ⟨u, hrunPops, huS, hvalues⟩ := pops_run pops t vs.reverse htrun hpop hcount hstack
  refine ⟨t, u, hrunPushes, hrunPops, htS, ?_, hvalues⟩
  rw [huS, htS, hlength, BitVec.sub_add_cancel]

end Sys2Proof.Machine
end
